-- ==== Sys2Proof/Word.lean ====
section
/-! DEFINITION. The word types of the block: the operand and register widths that the spec gives
(10_state.md R13, 30_encoding.md R47 to R57), and the index of one stored sample. -/

namespace Sys2Proof

/-- A uint8 field, or one byte of a byte string. -/
abbrev Byte := BitVec 8

/-- A uint16 field. -/
abbrev Word16 := BitVec 16

/-- A uint32 field. -/
abbrev Word32 := BitVec 32

/-- One int16 sample, carried as a whole word (20_memory.md R33, R34). -/
abbrev Sample := BitVec 16

/-- One stored element of the Sample Buffer: its index and its sample. The block's smallest
addressable unit is a whole sample (20_memory.md R31). -/
abbrev SampleCell := Nat × Sample

end Sys2Proof
end

