-- ==== Sys2Proof/Config.lean ====
section
/-! DEFINITION. What is fixed for a run: the constants the source states (00_scope.md R6) and the
parameters it leaves open (00_scope.md R7, 10_state.md R24). An open parameter is an uninterpreted
constant, so that a claim holds for every value of it. Where the spec bounds a parameter, the bound
is built into the definition made from the uninterpreted constant. -/

namespace Sys2Proof.Config

/-! ## Fixed constants (00_scope.md R6) -/

/-- `SAMPLE_RATE`, in Hz. -/
def sampleRate : Nat := 8000

/-- `CHANNELS`. -/
def channels : Nat := 1

/-- `SF_MS`: one sub-frame, in milliseconds. -/
def sfMs : Nat := 10

/-- `SF_SAMPLES`: samples in one sub-frame. -/
def sfSamples : Nat := 80

/-- `FD_DEFAULT`, in milliseconds: the frame duration of a format without a framing parameter. -/
def fdDefault : Nat := 20

/-- `FD_SET`: the supported frame durations, in milliseconds. -/
def fdSet : List Nat := [20, 30]

/-- `BUF_CAP`: the Sample Buffer's capacity in samples. -/
def bufCap : Nat := 480

/-! ## The Codec Core (10_state.md R24) -/

/-- A Configuration (00_scope.md R5): what `codec_init` is given. -/
structure Configuration where
  frameDurationMs : Nat
  sampleRateHz : Nat
  channels : Nat
  deriving DecidableEq, Repr

/-- `CodecState`: the core's internal adaptive state. DESIGN CHOICE (log 6, safe): the abstract type
is carried by a number, so that State is plain data; no operation of the block looks inside. -/
structure CodecState where
  code : Nat
  deriving DecidableEq, Repr, Inhabited

/-- The core's speech indication (10_state.md R24). -/
inductive Speech where
  | none
  | active
  | inactive
  deriving DecidableEq, Repr, Inhabited

/-- What one invocation of the core answers: `Fail`, or the next state, the encoded bytes and the
speech indication (10_state.md R24). -/
inductive CodecResult where
  | fail
  | ok (next : CodecState) (bytes : List Byte) (speech : Speech)
  deriving DecidableEq, Repr, Inhabited

/-- `codec_init`, OPEN (D22). -/
opaque codecInit : Configuration → CodecState

/-- `codec_reset`, OPEN (D22): total, not assumed idempotent (41_packetizer.md R78). -/
opaque codecReset : CodecState → CodecState

/-- The core's encoder before the rule on `CODEC_REPORTS_SPEECH` is applied, OPEN (D22). -/
opaque codecEncodeRaw : CodecState → List Sample → CodecResult

/-- `CODEC_REPORTS_SPEECH`, OPEN (D8). -/
opaque codecReportsSpeech : Bool

/-- `codec_encode` (10_state.md R24): a function of its arguments alone; when
`CODEC_REPORTS_SPEECH` is false the indication is always `none`. -/
def codecEncode (c : CodecState) (frame : List Sample) : CodecResult :=
  match codecEncodeRaw c frame with
  | .fail => .fail
  | .ok next bytes speech => .ok next bytes (if codecReportsSpeech then speech else .none)

/-! ## Other open parameters (00_scope.md R7) -/

/-- Bytes per packet less one, OPEN (D7). -/
opaque bPktLessOne : Nat → Fin 65535

/-- `B_PKT(fd)`: encoded bytes per packet, at least 1 (R7). DEDUCED (log 7, unsafe): at most 65535,
since `PKT_LEN` is a uint16 that always equals it (30_encoding.md R56). -/
def bPkt (fd : Nat) : Nat := (bPktLessOne fd).val + 1

/-- `CODEC_NAME` before widening, OPEN (D9): a string of 7-bit ASCII characters (00_scope.md R7). -/
opaque codecNameAscii : List (BitVec 7)

/-- `CODEC_NAME` as a byte string. -/
def codecName : List Byte := codecNameAscii.map (fun c => c.setWidth 8)

/-- `NAME_ACCEPT`, OPEN (D10). -/
opaque nameAccept : List Byte → Bool

/-- One end of the reported bitrate range, OPEN (D13). -/
opaque brEndA : Nat → Word32

/-- The other end of the reported bitrate range, OPEN (D13). -/
opaque brEndB : Nat → Word32

/-- `BR_MIN(fd)`: the smaller end. DESIGN CHOICE (log 8, safe): the order that R67 requires of the
two parameters is had by sorting two uninterpreted ends. -/
def brMin (fd : Nat) : Word32 := if (brEndA fd).toNat ≤ (brEndB fd).toNat then brEndA fd else brEndB fd

/-- `BR_MAX(fd)`: the larger end. -/
def brMax (fd : Nat) : Word32 := if (brEndA fd).toNat ≤ (brEndB fd).toNat then brEndB fd else brEndA fd

end Sys2Proof.Config
end

