-- ==== Sys2Proof/Syntax.lean ====
section
/-! DEFINITION. The commands of the block with their operands (30_encoding.md R46, R47), the
negotiated format descriptor (R53), and the form in which a host presents a command: the command
word and the operand bundle (R44, R47). -/

namespace Sys2Proof

/-- `FMT`, the negotiated format descriptor (30_encoding.md R53). -/
structure FormatDescriptor where
  /-- `FMT_NAME`: the codec name the format carries. -/
  name : List Byte
  /-- `FMT_RATE`: sample rate in Hz. -/
  rate : Word32
  /-- `FMT_CH`: channel count. -/
  ch : Byte
  /-- `FMT_FR_PRESENT`: the optional framing parameter is present. -/
  frPresent : Bool
  /-- `FMT_FR_WF`: the framing parameter is a well-formed decimal number. -/
  frWf : Bool
  /-- `FMT_FR_VAL`: the framing parameter's value in ms. -/
  frVal : Word16
  deriving DecidableEq, Repr

/-- A command with the operands it takes (30_encoding.md R46, R47). -/
inductive Instr where
  | constructCfg (pt : Byte) (fd : Word16)
  | constructLegacy (pt : Byte) (rate : Word32) (ch : Byte) (fd : Word16)
  | constructFmt (pt : Byte) (fmt : FormatDescriptor)
  | destroy
  | submit (ts : Word32) (len : Word16) (samples : List Sample)
  | reset
  | qRate
  | qChannels
  | qNext
  | qMax
  | qBitrate
  | qName
  | resolve (fmt : FormatDescriptor)
  | capability (fmt : FormatDescriptor)
  deriving DecidableEq, Repr

/-- The operand bundle: every operand field of 30_encoding.md R47, each at its own width. A command
reads the fields listed for it and ignores the others. -/
structure Bundle where
  /-- `PT` (R50). -/
  pt : Byte
  /-- `FD` (R51). -/
  fd : Word16
  /-- `LEG_RATE` (R52). -/
  legRate : Word32
  /-- `LEG_CH` (R52). -/
  legCh : Byte
  /-- `LEG_FD` (R52). -/
  legFd : Word16
  /-- `FMT` (R53). -/
  fmt : FormatDescriptor
  /-- `TS` (R48). -/
  ts : Word32
  /-- `LEN` (R49). -/
  len : Word16
  /-- `SAMPLES` (R49). -/
  samples : List Sample
  deriving DecidableEq, Repr

/-- One command as the host issues it on the command port: `CW` and the operand bundle
(30_encoding.md R44). -/
structure Command where
  word : Byte
  bundle : Bundle
  deriving DecidableEq, Repr

end Sys2Proof
end

