-- ==== Sys2Proof/WellFormed.lean ====
section
/-! DEFINITION. Which commands the spec can express: the two bounds that the operand types alone do
not carry. `FMT_NAME` has length 0..255 (30_encoding.md R53) and `SAMPLES` is a sequence of exactly
`LEN` values (R49). A wrong `LEN` is well-formed: SUBMIT faults on it (41_packetizer.md R71). -/

namespace Sys2Proof

/-- `FMT_NAME` is 0 to 255 bytes long (30_encoding.md R53). -/
def FormatDescriptor.wellFormed (f : FormatDescriptor) : Bool := decide (f.name.length ≤ 255)

/-- `SAMPLES` holds exactly `LEN` values (30_encoding.md R49). -/
def samplesMatch (len : Word16) (samples : List Sample) : Bool := decide (samples.length = len.toNat)

/-- The command's operands are ones the operand bundle of 30_encoding.md R47 can carry. -/
def WellFormed : Instr → Bool
  | .constructCfg _ _ => true
  | .constructLegacy _ _ _ _ => true
  | .constructFmt _ fmt => fmt.wellFormed
  | .destroy => true
  | .submit _ len samples => samplesMatch len samples
  | .reset => true
  | .qRate => true
  | .qChannels => true
  | .qNext => true
  | .qMax => true
  | .qBitrate => true
  | .qName => true
  | .resolve fmt => fmt.wellFormed
  | .capability fmt => fmt.wellFormed

end Sys2Proof
end

