-- ==== Sys2Proof/Decode.lean ====
section
/-! DEFINITION. The decoder and the encoder, both from the opcode map of 30_encoding.md R45, R46 and
the operand table of R47. Decoding is total: it answers a command, or rejects by name. The checks of
30_encoding.md R60 that depend on `LIFE` belong to the machine (Machine/Ops.lean). -/

namespace Sys2Proof

/-- Why the decoder gives no command. The first three spell no command at all (30_encoding.md R59);
the last two are bundles the spec cannot express (R49, R53). -/
inductive DecodeError where
  /-- `RSV ≠ 0b0000`. -/
  | reservedBits
  /-- `OPC = 0x0`. -/
  | opcodeZero
  /-- `OPC = 0xF`. -/
  | opcodeFifteen
  /-- `SAMPLES` does not hold exactly `LEN` values. -/
  | samplesNotLen
  /-- `FMT_NAME` is longer than 255 bytes. -/
  | nameTooLong
  deriving DecidableEq, Repr

/-- The error is one of an illegal command word (30_encoding.md R59), not of a bundle. -/
def DecodeError.illegalWord : DecodeError → Bool
  | .reservedBits => true
  | .opcodeZero => true
  | .opcodeFifteen => true
  | .samplesNotLen => false
  | .nameTooLong => false

/-- `OPC = CW[3:0]` (30_encoding.md R45). -/
def opcField (cw : Byte) : BitVec 4 := cw.extractLsb' 0 4

/-- `RSV = CW[7:4]` (30_encoding.md R45). -/
def rsvField (cw : Byte) : BitVec 4 := cw.extractLsb' 4 4

/-- The command word spells no command (30_encoding.md R59). -/
def illegalWord (cw : Byte) : Bool :=
  rsvField cw != 0#4 || opcField cw == 0x0#4 || opcField cw == 0xF#4

/-- Operand assembly (30_encoding.md R47, R54) for a command word whose reserved bits are zero: the
opcode picks the command, and the command's listed fields are taken from the bundle unchanged. -/
def assemble (opc : BitVec 4) (b : Bundle) : Except DecodeError Instr :=
  match opc.toNat with
  | 0x1 => .ok (.constructCfg b.pt b.fd)
  | 0x2 => .ok (.constructLegacy b.pt b.legRate b.legCh b.legFd)
  | 0x3 => if b.fmt.wellFormed then .ok (.constructFmt b.pt b.fmt) else .error .nameTooLong
  | 0x4 => .ok .destroy
  | 0x5 => if samplesMatch b.len b.samples then .ok (.submit b.ts b.len b.samples)
           else .error .samplesNotLen
  | 0x6 => .ok .reset
  | 0x7 => .ok .qRate
  | 0x8 => .ok .qChannels
  | 0x9 => .ok .qNext
  | 0xA => .ok .qMax
  | 0xB => .ok .qBitrate
  | 0xC => .ok .qName
  | 0xD => if b.fmt.wellFormed then .ok (.resolve b.fmt) else .error .nameTooLong
  | 0xE => if b.fmt.wellFormed then .ok (.capability b.fmt) else .error .nameTooLong
  | 0x0 => .error .opcodeZero
  | _ => .error .opcodeFifteen

/-- Decoding (30_encoding.md R60), but for the checks on `LIFE`: the command word first, then the
operands of the command it spells. -/
def decode (c : Command) : Except DecodeError Instr :=
  if rsvField c.word != 0#4 then .error .reservedBits else assemble (opcField c.word) c.bundle

/-! ## The encoder -/

/-- The opcode of a command, from the map of 30_encoding.md R46. -/
def Instr.opc : Instr → BitVec 4
  | .constructCfg _ _ => 0x1#4
  | .constructLegacy _ _ _ _ => 0x2#4
  | .constructFmt _ _ => 0x3#4
  | .destroy => 0x4#4
  | .submit _ _ _ => 0x5#4
  | .reset => 0x6#4
  | .qRate => 0x7#4
  | .qChannels => 0x8#4
  | .qNext => 0x9#4
  | .qMax => 0xA#4
  | .qBitrate => 0xB#4
  | .qName => 0xC#4
  | .resolve _ => 0xD#4
  | .capability _ => 0xE#4

/-- The format descriptor whose every field is zero. -/
def FormatDescriptor.zero : FormatDescriptor :=
  { name := [], rate := 0, ch := 0, frPresent := false, frWf := false, frVal := 0 }

/-- The operand bundle whose every field is zero. -/
def Bundle.zero : Bundle :=
  { pt := 0, fd := 0, legRate := 0, legCh := 0, legFd := 0, fmt := FormatDescriptor.zero,
    ts := 0, len := 0, samples := [] }

/-- The operand fields a command takes (30_encoding.md R47), every other field zero. -/
def Instr.bundle : Instr → Bundle
  | .constructCfg pt fd => { Bundle.zero with pt := pt, fd := fd }
  | .constructLegacy pt rate ch fd =>
      { Bundle.zero with pt := pt, legRate := rate, legCh := ch, legFd := fd }
  | .constructFmt pt fmt => { Bundle.zero with pt := pt, fmt := fmt }
  | .submit ts len samples => { Bundle.zero with ts := ts, len := len, samples := samples }
  | .resolve fmt => { Bundle.zero with fmt := fmt }
  | .capability fmt => { Bundle.zero with fmt := fmt }
  | .destroy => Bundle.zero
  | .reset => Bundle.zero
  | .qRate => Bundle.zero
  | .qChannels => Bundle.zero
  | .qNext => Bundle.zero
  | .qMax => Bundle.zero
  | .qBitrate => Bundle.zero
  | .qName => Bundle.zero

/-- The command word of a command: `RSV = 0b0000` above its opcode (30_encoding.md R45). -/
def Instr.word (i : Instr) : Byte := 0x0#4 ++ i.opc

/-- The command word and the operand bundle of a command. -/
def encode (i : Instr) : Command := { word := i.word, bundle := i.bundle }

/-! ## The host's table words -/

/-- The command whose word has the low eight bits of `w` and whose operand fields are all zero. -/
def zeroOperandCommand (w : Nat) : Command := { word := BitVec.ofNat 8 w, bundle := Bundle.zero }

/-- What the decoder gives for a row of spec/opcode_table.json: each row has the eight bits of the
command word, and the operand bundle's fields, which the table gives no bits, are zero (log 10). -/
def decodeTableWord (nbits w : Nat) : Option Instr :=
  if nbits = 8 then
    match decode (zeroOperandCommand w) with
    | .ok i => some i
    | .error _ => none
  else none

end Sys2Proof
end

