-- ==== Sys2Proof/Machine/State.lean ====
section
/-! DEFINITION. The state of the block (10_state.md R13 to R23), the responses it returns
(30_encoding.md R55 to R57), the host's side of the command port, the reasons a step can stop, and
the state after power-on reset (70_reset_and_hazards.md R114). -/

namespace Sys2Proof.Machine

open Sys2Proof

/-- `LIFE` (10_state.md R15). DEDUCED (log 13, safe): the reserved code 0b11, which no rule writes,
is no value of the type. -/
inductive Life where
  | unconstructed
  | ready
  | faulted
  deriving DecidableEq, Repr

/-- The Sample Buffer as a sparse list of written elements (20_memory.md R31). Canonical form:
indices strictly rising, all below 480 (`Buf.wf` in Machine/Ops.lean). DESIGN CHOICE (log 2, safe):
an element that nothing has written has no value. -/
abbrev Buf := List SampleCell

/-- The block's architectural registers: exactly those of 10_state.md R13. -/
structure Block where
  /-- `LIFE` (R15). -/
  life : Life
  /-- `CFG_FD`: the configured frame duration in ms (R16). -/
  cfgFd : Word16
  /-- `CFG_PT`: the payload type (R17). -/
  cfgPt : Byte
  /-- `COUNTER`: the Accumulation Counter (R18). -/
  counter : BitVec 2
  /-- `TS0`: First-Timestamp-In-Buffer (R19). -/
  ts0 : Word32
  /-- `BUF[0..479]`: the Sample Buffer (R21). -/
  buf : Buf
  /-- `CS`: the Codec Core's state, or none while no core exists (R24, R29). -/
  cs : Option Config.CodecState
  /-- `FAULT_CAUSE` (R23). -/
  faultCause : BitVec 4
  /-- `FAULT_OPC` (R23). -/
  faultOpc : BitVec 4
  /-- `FAULT_INFO` (R23). -/
  faultInfo : Word16
  deriving DecidableEq, Repr

/-- The Encoded Output (30_encoding.md R56). -/
structure Packet where
  /-- `PKT_BYTES`, byte 0 first. -/
  bytes : List Byte
  /-- `PKT_LEN`. -/
  len : Word16
  /-- `PKT_TS`. -/
  ts : Word32
  /-- `PKT_PT`. -/
  pt : Byte
  /-- `PKT_SPEECH`. -/
  speech : BitVec 2
  deriving DecidableEq, Repr

/-- The fields of an `OK` response (30_encoding.md R57). -/
inductive OkFields where
  /-- No field: CONSTRUCT_*, DESTROY, RESET. -/
  | plain
  /-- `VALUE`: Q_RATE, Q_CHANNELS, Q_NEXT, Q_MAX, Q_BITRATE. -/
  | value (v : Word32)
  /-- `NAME`: Q_NAME. -/
  | name (bytes : List Byte)
  /-- `RES_FD`: RESOLVE. -/
  | resFd (fd : Word16)
  /-- `CAP_RATE`, `CAP_CH`, `CAP_BRMIN`, `CAP_BRMAX`: CAPABILITY. -/
  | capability (rate : Word32) (ch : Byte) (brMin brMax : Word32)
  deriving DecidableEq, Repr

/-- A response record (30_encoding.md R55 to R57), one constructor for each value of `STATUS`. -/
inductive Response where
  | ok (fields : OkFields)
  | noPacket
  | packet (p : Packet)
  | unsupported
  deriving DecidableEq, Repr

/-- What a host can do to the block (70_reset_and_hazards.md R125): issue a command on the command
port, or apply power-on reset (R114). -/
inductive HostEvent where
  | command (c : Command)
  | powerOnReset
  deriving DecidableEq, Repr

/-- The whole state of a run: the block, and the host's side of the command port. -/
structure State where
  /-- The block's registers. -/
  blk : Block
  /-- The host's events still to be performed, the next one first. DESIGN CHOICE (log 3, safe). -/
  port : List HostEvent
  /-- The response record the last command returned, or none. DESIGN CHOICE (log 4, safe). -/
  resp : Option Response
  deriving DecidableEq, Repr

/-- Why the machine stops. None of these is a fault of 60_exceptions.md R96: such a fault is entered
as a next state (R103), with its cause in `FAULT_CAUSE`. -/
inductive Fault where
  /-- Raised by every command, and by a step without a power-on reset to perform, while
  `LIFE = FAULTED`, where no command has a step (60_exceptions.md R104). Safe. -/
  | blockFaulted
  /-- Raised by a SUBMIT whose packet read meets a buffer element that nothing has written, whose
  value is unspecified (10_state.md R22, I11). No run reaches it. Safe. -/
  | bufUnspecified
  /-- Raised by a completing SUBMIT where no Codec Core exists, which no run reaches while
  `LIFE = READY` (10_state.md R25). Safe. -/
  | codecCoreAbsent
  deriving DecidableEq, Repr

/-- Why a command is given no meaning. -/
inductive Refusal where
  /-- Raised by an arm of `exec` whose command has no meaning yet. Safe. -/
  | notModelled (mnemonic : String)
  /-- Raised by a step whose operand bundle the spec cannot express: `SAMPLES` without exactly `LEN`
  values, or `FMT_NAME` above 255 bytes (30_encoding.md R49, R53). Safe. -/
  | malformedBundle
  deriving DecidableEq, Repr

/-- The block's registers after power-on reset (70_reset_and_hazards.md R114). The values of `CFG_FD`,
`CFG_PT`, `COUNTER` and `TS0`, which R29 leaves unspecified, are a DESIGN CHOICE (log 1, unsafe). -/
def Block.powerOn : Block :=
  { life := .unconstructed
    cfgFd := 0
    cfgPt := 0
    counter := 0
    ts0 := 0
    buf := []
    cs := none
    faultCause := 0
    faultOpc := 0
    faultInfo := 0 }

/-- The machine right after power-on reset, with no command issued yet. -/
def State.reset : State := { blk := Block.powerOn, port := [], resp := none }

/-! ## Updates of one register (the only writes the machine makes) -/

/-- Write the block's registers. -/
def State.setBlk (s : State) (b : Block) : State := { s with blk := b }

/-- Write the response record. -/
def State.setResp (s : State) (r : Option Response) : State := { s with resp := r }

/-- Write the host's remaining events. -/
def State.setPort (s : State) (es : List HostEvent) : State := { s with port := es }

end Sys2Proof.Machine
end

