-- ==== Sys2Proof/Machine/Flags.lean ====
section
/-! DEFINITION. The codes a host sees: `LIFE` and the fault causes on the status port, `STATUS` and
`PKT_SPEECH` in a response. The block has no condition flags (10_state.md R26); a command's `STATUS`
is the flag it sets. -/

namespace Sys2Proof.Machine

open Sys2Proof

/-- The code of `LIFE` (10_state.md R15). -/
def Life.code : Life → BitVec 2
  | .unconstructed => 0b00#2
  | .ready => 0b01#2
  | .faulted => 0b10#2

/-- The fatal faults (60_exceptions.md R96). -/
inductive Cause where
  | illegalCommand
  | noInstance
  | alreadyConstructed
  | contractLength
  | codec
  | outputSize
  deriving DecidableEq, Repr

/-- The cause code held in `FAULT_CAUSE` (60_exceptions.md R96). -/
def Cause.code : Cause → BitVec 4
  | .illegalCommand => 1#4
  | .noInstance => 2#4
  | .alreadyConstructed => 3#4
  | .contractLength => 4#4
  | .codec => 5#4
  | .outputSize => 6#4

/-- `STATUS` (30_encoding.md R55). -/
def Response.status : Response → BitVec 4
  | .ok _ => 0x0#4
  | .noPacket => 0x1#4
  | .packet _ => 0x2#4
  | .unsupported => 0x3#4

/-- The coding of the Codec Core's indication in `PKT_SPEECH` (30_encoding.md R56). -/
def speechCode : Config.Speech → BitVec 2
  | .none => 0b00#2
  | .inactive => 0b01#2
  | .active => 0b10#2

/-- What the status port shows (30_encoding.md R58). -/
structure StatusPort where
  life : BitVec 2
  faultCause : BitVec 4
  faultOpc : BitVec 4
  faultInfo : Word16
  deriving DecidableEq, Repr

/-- The status port (30_encoding.md R58): a view of the registers, which changes nothing. -/
def statusPort (s : State) : StatusPort :=
  { life := s.blk.life.code
    faultCause := s.blk.faultCause
    faultOpc := s.blk.faultOpc
    faultInfo := s.blk.faultInfo }

/-- The level a host may wire to an interrupt line of its own (60_exceptions.md R99). -/
def faultLine (s : State) : Bool := s.blk.life == .faulted

end Sys2Proof.Machine
end

