-- ==== Sys2Proof/Machine/Operands.lean ====
section
/-! DEFINITION. What the block computes from its operands and its configuration: the derived
constants (00_scope.md R8), the views of the registers (10_state.md R19, R20, R22), configuration
validity (43_lifecycle.md R88) and the Format Resolver (40_format_resolver.md R63). Every numeric
operand is zero-extended to a natural number before it is compared (30_encoding.md R54). -/

namespace Sys2Proof.Machine

open Sys2Proof

/-! ## Derived constants of an instance (00_scope.md R8) -/

/-- `TARGET = fd / 10`: sub-frames in one packet. -/
def target (fd : Word16) : Nat := fd.toNat / Config.sfMs

/-- `PKT_SAMPLES = TARGET × SF_SAMPLES`. -/
def pktSamples (fd : Word16) : Nat := target fd * Config.sfSamples

/-- `REQUIRED_OUTPUT_SIZE = B_PKT(fd)` (41_packetizer.md R69). -/
def requiredOutputSize (fd : Word16) : Nat := Config.bPkt fd.toNat

/-- `BITRATE(fd)` in bits per second, truncated toward zero (42_queries.md R84). -/
def bitrate (fd : Word16) : Nat := Config.bPkt fd.toNat * 8 * 1000 / fd.toNat

/-! ## Views of the registers -/

/-- `TS0_VALID` (10_state.md R19). -/
def Block.ts0Valid (b : Block) : Bool := b.counter != 0

/-- `OCC`: the occupied length of the Sample Buffer (10_state.md R22). -/
def Block.occ (b : Block) : Nat := b.counter.toNat * Config.sfSamples

/-- The states of the packetization state machine (10_state.md R20). -/
inductive PacketState where
  | empty
  | filling
  | full
  deriving DecidableEq, Repr

/-- The packetization state as a function of `LIFE` and `COUNTER` (10_state.md R20); none where the
table gives no state. -/
def Block.packetState (b : Block) : Option PacketState :=
  if b.life = .ready then
    if b.counter.toNat = 0 then some .empty
    else if b.counter.toNat < target b.cfgFd then some .filling
    else if b.counter.toNat = target b.cfgFd then some .full
    else none
  else none

/-! ## Configuration validity -/

/-- `valid(fd, rate, ch)` (43_lifecycle.md R88). -/
def validConfig (fd rate ch : Nat) : Bool :=
  Config.fdSet.contains fd && rate == Config.sampleRate && ch == Config.channels

/-- The Configuration of an instance with frame duration `fd` (00_scope.md R5). -/
def configurationOf (fd : Word16) : Config.Configuration :=
  { frameDurationMs := fd.toNat, sampleRateHz := Config.sampleRate, channels := Config.channels }

/-! ## The Format Resolver -/

/-- What the resolver answers (40_format_resolver.md R63). -/
inductive Resolution where
  | cfg (fd : Word16)
  | unsupported
  deriving DecidableEq, Repr

/-- The framing parameter (40_format_resolver.md R63): absent gives the default, present and
unrecognised gives `Unsupported`, never the default (R65). -/
def resolveFraming (f : FormatDescriptor) : Resolution :=
  if f.frPresent = false then .cfg (BitVec.ofNat 16 Config.fdDefault)
  else if f.frWf = false then .unsupported
  else if f.frVal.toNat = 20 then .cfg 20
  else if f.frVal.toNat = 30 then .cfg 30
  else .unsupported

/-- `resolve(FMT)` (40_format_resolver.md R63). DEDUCED (log 18, safe): the name is checked after the
rate and the channel count, since R63 says that the order makes no difference
(`resolve_eq_spec_order` in Laws/Operands.lean proves it). -/
def resolve (f : FormatDescriptor) : Resolution :=
  if f.rate.toNat ≠ Config.sampleRate then .unsupported
  else if f.ch.toNat ≠ Config.channels then .unsupported
  else if Config.nameAccept f.name = false then .unsupported
  else resolveFraming f

/-- The response of RESOLVE (40_format_resolver.md R64). -/
def resolveResponse (f : FormatDescriptor) : Response :=
  match resolve f with
  | .unsupported => .unsupported
  | .cfg fd => .ok (.resFd fd)

/-- The response of CAPABILITY (40_format_resolver.md R66). -/
def capabilityResponse (f : FormatDescriptor) : Response :=
  match resolve f with
  | .unsupported => .unsupported
  | .cfg fd =>
    .ok (.capability (BitVec.ofNat 32 Config.sampleRate) (BitVec.ofNat 8 Config.channels)
      (Config.brMin fd.toNat) (Config.brMax fd.toNat))

end Sys2Proof.Machine
end

