-- ==== Sys2Proof/Machine/Ops.lean ====
section
/-! DEFINITION. The operations the meanings share: reading and writing the Sample Buffer
(00_scope.md R10, 20_memory.md R31 to R37), ending a command with a response (30_encoding.md R55),
entering a fatal fault (60_exceptions.md R103), the checks on `LIFE` (30_encoding.md R60,
60_exceptions.md R100), the construction step (43_lifecycle.md R91), power-on reset
(70_reset_and_hazards.md R114) and taking the next event from the command port. -/

namespace Sys2Proof.Machine

open Sys2Proof

/-- What a meaning answers. -/
abbrev Result := Host.Outcome State Fault Refusal

/-! ## The Sample Buffer -/

/-- The list holds its elements at strictly rising indices, the first of them at `lo` or above. -/
def Buf.risingFrom (lo : Nat) : Buf → Bool
  | [] => true
  | (a, _) :: m => decide (lo ≤ a) && Buf.risingFrom (a + 1) m

/-- The canonical form of the buffer: indices strictly rising, all below `BUF_CAP`. -/
def Buf.wf (m : Buf) : Bool := Buf.risingFrom 0 m && m.all (fun c => decide (c.1 < Config.bufCap))

/-- `BUF[a]`, or none where nothing has written the element. -/
def Buf.read : Buf → Nat → Option Sample
  | [], _ => none
  | (b, v) :: m, a => if a = b then some v else Buf.read m a

/-- `BUF[a] <- v`, keeping the canonical form. -/
def Buf.write : Buf → Nat → Sample → Buf
  | [], a, v => [(a, v)]
  | (b, w) :: m, a, v =>
    if a < b then (a, v) :: (b, w) :: m
    else if a = b then (a, v) :: m
    else (b, w) :: Buf.write m a v

/-- `MemWrite(a, n, v)` with `n` the length of `v`: `v[0]` at index `a` (00_scope.md R10). -/
def memWrite (m : Buf) (a : Nat) : List Sample → Buf
  | [] => m
  | v :: vs => memWrite (m.write a v) (a + 1) vs

/-- `MemRead(a, n)`: the samples `BUF[a] .. BUF[a+n-1]` in index order (00_scope.md R10), or none where
one of them has never been written. -/
def memRead (m : Buf) (a : Nat) : Nat → Option (List Sample)
  | 0 => some []
  | n + 1 =>
    match m.read a with
    | none => none
    | some v =>
      match memRead m (a + 1) n with
      | none => none
      | some vs => some (v :: vs)

/-! ## Ending a command -/

/-- `respond`: the command ends and returns its response record (00_scope.md R10). -/
def respond (r : Response) (s : State) : Result := .next (s.setResp (some r))

/-- Fault entry (60_exceptions.md R103): the fault registers are written, `LIFE` becomes FAULTED, and
no response record is returned. `cw` is the faulting command word. -/
def enterFault (cause : Cause) (info : Word16) (cw : Byte) (s : State) : State :=
  (s.setBlk { s.blk with
    faultCause := cause.code
    faultOpc := opcField cw
    faultInfo := info
    life := .faulted }).setResp none

/-- `raise F_<name>(info)`: a fatal fault is entered and the command ends. The entry is a next state
(log 5); the step after it is the one that stops. -/
def raise (cause : Cause) (info : Word16) (cw : Byte) (s : State) : Result :=
  .next (enterFault cause info cw s)

/-- `F_ILLEGAL_COMMAND` for a command word that spells no command (30_encoding.md R59). -/
def raiseIllegal (cw : Byte) (s : State) : Result :=
  raise .illegalCommand (cw.setWidth 16) cw s

/-! ## The checks on LIFE (30_encoding.md R60, 60_exceptions.md R100) -/

/-- A command accepted in UNCONSTRUCTED and in READY. -/
def whenAlive (s : State) (perform : State → Result) : Result :=
  match s.blk.life with
  | .faulted => .fault .blockFaulted
  | .unconstructed => perform s
  | .ready => perform s

/-- A command that needs an instance: `F_NO_INSTANCE` in UNCONSTRUCTED. -/
def whenReady (cw : Byte) (s : State) (perform : State → Result) : Result :=
  match s.blk.life with
  | .faulted => .fault .blockFaulted
  | .unconstructed => raise .noInstance (cw.setWidth 16) cw s
  | .ready => perform s

/-- A construction: `F_ALREADY_CONSTRUCTED` in READY. -/
def whenUnconstructed (cw : Byte) (s : State) (perform : State → Result) : Result :=
  match s.blk.life with
  | .faulted => .fault .blockFaulted
  | .unconstructed => perform s
  | .ready => raise .alreadyConstructed (cw.setWidth 16) cw s

/-! ## Construction -/

/-- The canonical construction step `construct(fd, pt)` (43_lifecycle.md R91). `TS0` and `BUF` are not
written (10_state.md R29; log 11). -/
def construct (fd : Word16) (pt : Byte) (s : State) : State :=
  s.setBlk { s.blk with
    cfgFd := fd
    cfgPt := pt
    counter := 0
    cs := some (Config.codecInit (configurationOf fd))
    life := .ready }

/-- The two outcomes of a construction command: the instance, or `UNSUPPORTED` with no state changed
(43_lifecycle.md R89, R90, R94). -/
def constructIf (valid : Bool) (fd : Word16) (pt : Byte) (s : State) : Result :=
  if valid then respond (.ok .plain) (construct fd pt s) else respond .unsupported s

/-! ## Power-on reset, and the command port -/

/-- Power-on reset (70_reset_and_hazards.md R114): no state of the block survives it. The host's later
events stay, and the last response is gone (log 15). -/
def applyPowerOn (s : State) : State := (s.setBlk Block.powerOn).setResp none

/-- A step with nothing on the port: the block is idle and keeps all its state (60_exceptions.md
R112), unless it is FAULTED, where it has no step (R104). -/
def idle (s : State) : Result :=
  match s.blk.life with
  | .faulted => .fault .blockFaulted
  | .unconstructed => .next s
  | .ready => .next s

/-- A command accepted from the port, performed by `run` (30_encoding.md R60): a FAULTED block has no
step, a word that spells no command raises F_ILLEGAL_COMMAND, and a bundle the spec cannot express is
refused (log 10). -/
def performCommand (run : Instr → State → Result) (c : Command) (s : State) : Result :=
  match s.blk.life with
  | .faulted => .fault .blockFaulted
  | .unconstructed | .ready =>
    match decode c with
    | .ok i => run i s
    | .error e => if e.illegalWord then raiseIllegal c.word s else .refused .malformedBundle

/-- The next event of the port is taken off it and performed. -/
def performNext (run : Instr → State → Result) (s : State) : Result :=
  match s.port with
  | [] => idle s
  | .powerOnReset :: rest => .next (applyPowerOn (s.setPort rest))
  | .command c :: rest => performCommand run c (s.setPort rest)

/-- The host issues one more command, to be performed before those already waiting. -/
def issueNext (c : Command) (s : State) : State := s.setPort (.command c :: s.port)

end Sys2Proof.Machine
end

