-- ==== Sys2Proof/Machine/Lifecycle.lean ====
section
/-! DEFINITION. The three construction commands and DESTROY (43_lifecycle.md). -/

namespace Sys2Proof.Machine

open Sys2Proof

/-- CONSTRUCT_CFG (43_lifecycle.md R89). -/
def execConstructCfg (pt : Byte) (fd : Word16) (s : State) : Result :=
  whenUnconstructed 0x01 s
    (constructIf (validConfig fd.toNat Config.sampleRate Config.channels) fd pt)

/-- CONSTRUCT_LEGACY (43_lifecycle.md R90). -/
def execConstructLegacy (pt : Byte) (rate : Word32) (ch : Byte) (fd : Word16) (s : State) : Result :=
  whenUnconstructed 0x02 s (constructIf (validConfig fd.toNat rate.toNat ch.toNat) fd pt)

/-- CONSTRUCT_FMT (43_lifecycle.md R92). -/
def execConstructFmt (pt : Byte) (fmt : FormatDescriptor) (s : State) : Result :=
  whenUnconstructed 0x03 s fun s =>
    match resolve fmt with
    | .unsupported => constructIf false 0 pt s
    | .cfg fd => constructIf true fd pt s

/-- The block after its instance has ended (43_lifecycle.md R95): the Codec Core is destroyed. The
registers R95 calls unspecified are not written (log 11). -/
def endInstance (b : Block) : Block := { b with cs := none, life := .unconstructed }

/-- DESTROY (43_lifecycle.md R95). -/
def execDestroy (s : State) : Result :=
  whenReady 0x04 s fun s => respond (.ok .plain) (s.setBlk (endInstance s.blk))

end Sys2Proof.Machine
end

