-- ==== Sys2Proof/Machine/Packetizer.lean ====
section
/-! DEFINITION. SUBMIT and RESET (41_packetizer.md). -/

namespace Sys2Proof.Machine

open Sys2Proof

/-- The steps of SUBMIT before the packet is complete: the timestamp (41_packetizer.md R72), the append
and the count (R73). -/
def appendSubFrame (ts : Word32) (samples : List Sample) (b : Block) : Block :=
  { b with
    ts0 := if b.counter = 0 then ts else b.ts0
    buf := memWrite b.buf b.occ samples
    counter := b.counter + 1 }

/-- The block after a packet (41_packetizer.md R75): the core's next state is kept and the counter is 0,
which discards the buffer. -/
def clearPacket (next : Config.CodecState) (b : Block) : Block :=
  { b with cs := some next, counter := 0 }

/-- Emit and clear (41_packetizer.md R75): the core's next state is kept, the counter becomes 0, and the
packet carries the timestamp held before clearing. -/
def emitPacket (next : Config.CodecState) (bytes : List Byte) (speech : Config.Speech) (s : State) :
    Result :=
  respond
    (.packet
      { bytes := bytes
        len := BitVec.ofNat 16 (requiredOutputSize s.blk.cfgFd)
        ts := s.blk.ts0
        pt := s.blk.cfgPt
        speech := speechCode speech })
    (s.setBlk (clearPacket next s.blk))

/-- What follows the Codec Core's answer (41_packetizer.md R70, R75): its failure is fatal, and so is a
length other than the required one. -/
def finishPacket (answer : Config.CodecResult) (s : State) : Result :=
  match answer with
  | .fail => raise .codec 0 0x05 s
  | .ok next bytes speech =>
    if bytes.length ≠ requiredOutputSize s.blk.cfgFd then
      raise .outputSize (BitVec.ofNat 16 bytes.length) 0x05 s
    else emitPacket next bytes speech s

/-- Encode on FULL (41_packetizer.md R74): the whole packet is read and given to the Codec Core once
(R68). -/
def encodePacket (s : State) : Result :=
  match memRead s.blk.buf 0 (pktSamples s.blk.cfgFd) with
  | none => .fault .bufUnspecified
  | some frame =>
    match s.blk.cs with
    | none => .fault .codecCoreAbsent
    | some c => finishPacket (Config.codecEncode c frame) s

/-- After the append (41_packetizer.md R73): below the target nothing is emitted. -/
def countSubFrame (s : State) : Result :=
  if s.blk.counter.toNat < target s.blk.cfgFd then respond .noPacket s else encodePacket s

/-- SUBMIT (41_packetizer.md R71): the length is checked before any state changes. -/
def execSubmit (ts : Word32) (len : Word16) (samples : List Sample) (s : State) : Result :=
  whenReady 0x05 s fun s =>
    if len.toNat ≠ Config.sfSamples then raise .contractLength len 0x05 s
    else countSubFrame (s.setBlk (appendSubFrame ts samples s.blk))

/-- The block after RESET (41_packetizer.md R78): the buffered sub-frames are discarded and the Codec
Core's adaptive state is reset. `BUF` and `TS0` are not written. -/
def resetPacketizer (b : Block) : Block :=
  { b with counter := 0, cs := b.cs.map Config.codecReset }

/-- RESET (41_packetizer.md R78). -/
def execReset (s : State) : Result :=
  whenReady 0x06 s fun s => respond (.ok .plain) (s.setBlk (resetPacketizer s.blk))

end Sys2Proof.Machine
end

