-- ==== Sys2Proof/Machine/Queries.lean ====
section
/-! DEFINITION. The query commands (42_queries.md): each returns a value and writes no register. -/

namespace Sys2Proof.Machine

open Sys2Proof

/-- A query's response `OK(VALUE = n)` (30_encoding.md R57). -/
def respondValue (n : Nat) (s : State) : Result := respond (.ok (.value (BitVec.ofNat 32 n))) s

/-- Q_RATE (42_queries.md R80). -/
def execQRate (s : State) : Result := whenReady 0x07 s (respondValue Config.sampleRate)

/-- Q_CHANNELS (42_queries.md R81). -/
def execQChannels (s : State) : Result := whenReady 0x08 s (respondValue Config.channels)

/-- Q_NEXT (42_queries.md R82). -/
def execQNext (s : State) : Result :=
  whenReady 0x09 s fun s => respondValue (target s.blk.cfgFd - s.blk.counter.toNat) s

/-- Q_MAX (42_queries.md R83). -/
def execQMax (s : State) : Result :=
  whenReady 0x0A s fun s => respondValue (target s.blk.cfgFd) s

/-- Q_BITRATE (42_queries.md R84). -/
def execQBitrate (s : State) : Result :=
  whenReady 0x0B s fun s => respondValue (bitrate s.blk.cfgFd) s

/-- Q_NAME (42_queries.md R86): accepted without an instance. -/
def execQName (s : State) : Result :=
  whenAlive s (respond (.ok (.name Config.codecName)))

end Sys2Proof.Machine
end

