-- ==== Sys2Proof/Machine/Resolver.lean ====
section
/-! DEFINITION. RESOLVE and CAPABILITY (40_format_resolver.md): pure functions of the descriptor,
usable with and without an instance. -/

namespace Sys2Proof.Machine

open Sys2Proof

/-- RESOLVE (40_format_resolver.md R64). -/
def execResolve (fmt : FormatDescriptor) (s : State) : Result :=
  whenAlive s (respond (resolveResponse fmt))

/-- CAPABILITY (40_format_resolver.md R66). -/
def execCapability (fmt : FormatDescriptor) (s : State) : Result :=
  whenAlive s (respond (capabilityResponse fmt))

end Sys2Proof.Machine
end

