-- ==== Sys2Proof/Machine/Dispatch.lean ====
section
/-! DEFINITION. One arm per command, each a direct call of its meaning. -/

namespace Sys2Proof.Machine

open Sys2Proof

/-- The effect of one decoded command (30_encoding.md R46). -/
def exec (i : Instr) (s : State) : Host.Outcome State Fault Refusal :=
  match i with
  | .constructCfg pt fd => Sys2Proof.Machine.execConstructCfg pt fd s
  | .constructLegacy pt rate ch fd => Sys2Proof.Machine.execConstructLegacy pt rate ch fd s
  | .constructFmt pt fmt => Sys2Proof.Machine.execConstructFmt pt fmt s
  | .destroy => Sys2Proof.Machine.execDestroy s
  | .submit ts len samples => Sys2Proof.Machine.execSubmit ts len samples s
  | .reset => Sys2Proof.Machine.execReset s
  | .qRate => Sys2Proof.Machine.execQRate s
  | .qChannels => Sys2Proof.Machine.execQChannels s
  | .qNext => Sys2Proof.Machine.execQNext s
  | .qMax => Sys2Proof.Machine.execQMax s
  | .qBitrate => Sys2Proof.Machine.execQBitrate s
  | .qName => Sys2Proof.Machine.execQName s
  | .resolve fmt => Sys2Proof.Machine.execResolve fmt s
  | .capability fmt => Sys2Proof.Machine.execCapability fmt s

end Sys2Proof.Machine
end

