-- ==== Sys2Proof/Machine/Step.lean ====
section
/-! DEFINITION. One step of a run: the next event of the command port is performed
(00_scope.md R2, 20_memory.md R39). -/

namespace Sys2Proof.Machine

open Sys2Proof

/-- One step (00_scope.md R2): one command as one atomic transaction, one power-on reset, or idling. -/
def step (s : State) : Host.Outcome State Fault Refusal := performNext exec s

/-- `s` with the command of a row of spec/opcode_table.json issued as its next command, the operand
fields, which the table gives no bits, all zero (log 3, log 10). -/
def State.withFetchWord (s : State) (nbits w : Nat) : State :=
  issueNext (zeroOperandCommand (w % 2 ^ nbits)) s

end Sys2Proof.Machine
end

