-- ==== Sys2Proof/Machine/System.lean ====
section
/-! DEFINITION. Several blocks, one for each audio stream (60_exceptions.md R110): the product of
independent single-block models. -/

namespace Sys2Proof.Machine

open Sys2Proof

/-- Block `k` of the system takes one step and no other block changes; none where there is no block
`k`, or where its step stops. DESIGN CHOICE (log 16, safe): the blocks are numbered by the host's
wiring. -/
def stepBlock (k : Nat) (blocks : List State) : Option (List State) :=
  match blocks[k]? with
  | none => none
  | some s =>
    match step s with
    | .next t => some (blocks.set k t)
    | .fault _ => none
    | .refused _ => none

end Sys2Proof.Machine
end

