-- ==== Sys2Proof/Safety.lean ====
section
/-! DEFINITION. What claims about the block are stated in terms of: the invariants between commands
(10_state.md R30), the classes of commands (30_encoding.md R46, R47), what a rule can read of a block
(10_state.md R29), sequences of commands (41_packetizer.md R76) and the end of a run
(70_reset_and_hazards.md R124). -/

namespace Sys2Proof.Safety

open Sys2Proof Sys2Proof.Machine

/-! ## Invariants between commands -/

/-- The invariants that hold between any two commands (10_state.md R30 b, c, e, R22, R23, R25, R29, R37).
R30 a holds by the type of `LIFE`; R30 d is about the past and is stated over sequences of commands. -/
structure Inv (b : Block) : Prop where
  /-- R30 b: a configured frame duration is 20 or 30 ms. -/
  configured : b.life = .ready → b.cfgFd = 20 ∨ b.cfgFd = 30
  /-- R30 b: the Accumulation Counter is below the target. -/
  counting : b.life = .ready → b.counter.toNat < target b.cfgFd
  /-- R22: every element below the occupied length has been written. -/
  buffered : b.life = .ready → ∀ a, a < b.occ → (b.buf.read a).isSome = true
  /-- R25: an instance owns a Codec Core. -/
  core : b.life = .ready → b.cs.isSome = true
  /-- R29: without an instance there is no Codec Core. -/
  noCore : b.life = .unconstructed → b.cs = none
  /-- R30 e: the fault cause is 0 exactly outside FAULTED. -/
  cause : b.faultCause = 0 ↔ b.life ≠ .faulted
  /-- R96: cause codes 7 to 15 are never raised. -/
  causeCode : b.faultCause.toNat ≤ 6
  /-- R29: the other fault registers are 0 until a fault is entered. -/
  quiet : b.life ≠ .faulted → b.faultOpc = 0 ∧ b.faultInfo = 0
  /-- The buffer's canonical form. -/
  canonical : b.buf.wf = true
  /-- R22, R37: no element at index 240 or above is ever written. -/
  packetArea : ∀ c ∈ b.buf, c.1 < 240

/-! ## Fault entry, written out -/

/-- The state after fault entry (60_exceptions.md R103) with the given cause code, opcode and fault
information: no other register changes, and no response is returned. -/
def faultState (cause opc : BitVec 4) (info : Word16) (s : State) : State :=
  { blk := { s.blk with
      life := .faulted, faultCause := cause, faultOpc := opc, faultInfo := info }
    port := s.port
    resp := none }

/-- The state after a command that only responds. -/
def responded (r : Response) (s : State) : State := { blk := s.blk, port := s.port, resp := some r }

/-- What a successful construction leaves (43_lifecycle.md R91, with the column of 10_state.md R29): the
registers R91 writes, the fault registers as they were, and the response `OK`. Of `TS0` and `BUF`, which
R29 calls unspecified, it says nothing. -/
structure Constructed (fd : Word16) (pt : Byte) (s t : State) : Prop where
  resp : t.resp = some (.ok .plain)
  port : t.port = s.port
  life : t.blk.life = .ready
  cfgFd : t.blk.cfgFd = fd
  cfgPt : t.blk.cfgPt = pt
  counter : t.blk.counter = 0
  cs : t.blk.cs = some (Config.codecInit ⟨fd.toNat, 8000, 1⟩)
  faultCause : t.blk.faultCause = s.blk.faultCause
  faultOpc : t.blk.faultOpc = s.blk.faultOpc
  faultInfo : t.blk.faultInfo = s.blk.faultInfo

/-! ## Classes of commands -/

/-- The constructions: accepted in UNCONSTRUCTED only (30_encoding.md R46). -/
def constructs : Instr → Bool
  | .constructCfg _ _ => true
  | .constructLegacy _ _ _ _ => true
  | .constructFmt _ _ => true
  | .destroy => false
  | .submit _ _ _ => false
  | .reset => false
  | .qRate => false
  | .qChannels => false
  | .qNext => false
  | .qMax => false
  | .qBitrate => false
  | .qName => false
  | .resolve _ => false
  | .capability _ => false

/-- The commands that need an instance: accepted in READY only (30_encoding.md R46). -/
def needsInstance : Instr → Bool
  | .constructCfg _ _ => false
  | .constructLegacy _ _ _ _ => false
  | .constructFmt _ _ => false
  | .destroy => true
  | .submit _ _ _ => true
  | .reset => true
  | .qRate => true
  | .qChannels => true
  | .qNext => true
  | .qMax => true
  | .qBitrate => true
  | .qName => false
  | .resolve _ => false
  | .capability _ => false

/-- The query commands (42_queries.md R87). -/
def isQuery : Instr → Bool
  | .constructCfg _ _ => false
  | .constructLegacy _ _ _ _ => false
  | .constructFmt _ _ => false
  | .destroy => false
  | .submit _ _ _ => false
  | .reset => false
  | .qRate => true
  | .qChannels => true
  | .qNext => true
  | .qMax => true
  | .qBitrate => true
  | .qName => true
  | .resolve _ => false
  | .capability _ => false

/-- Two operand bundles agree on every field listed for the opcode (30_encoding.md R47). -/
def sameListedFields (opc : BitVec 4) (b c : Bundle) : Prop :=
  (opc = 0x1 → b.pt = c.pt ∧ b.fd = c.fd) ∧
  (opc = 0x2 → b.pt = c.pt ∧ b.legRate = c.legRate ∧ b.legCh = c.legCh ∧ b.legFd = c.legFd) ∧
  (opc = 0x3 → b.pt = c.pt ∧ b.fmt = c.fmt) ∧
  (opc = 0x5 → b.ts = c.ts ∧ b.len = c.len ∧ b.samples = c.samples) ∧
  (opc = 0xD ∨ opc = 0xE → b.fmt = c.fmt)

/-- A word that holds the opcode in `OPC` under reserved bits that are not zero spells no command, and
raises F_ILLEGAL_COMMAND (30_encoding.md R59, R60). -/
def malformedWordFaults (opc : BitVec 4) : Prop :=
  ∀ (s : State) (c : Command) (rest : List HostEvent),
    s.port = .command c :: rest → s.blk.life ≠ .faulted →
    c.word.extractLsb' 0 4 = opc → c.word.extractLsb' 4 4 ≠ 0#4 →
    step s = .next (faultState 1 opc (c.word.setWidth 16) { s with port := rest })

/-- The responses a command may return when it enters no fault (30_encoding.md R55, R57). -/
def responseFits : Instr → Response → Prop
  | .constructCfg _ _, r => r = .ok .plain ∨ r = .unsupported
  | .constructLegacy _ _ _ _, r => r = .ok .plain ∨ r = .unsupported
  | .constructFmt _ _, r => r = .ok .plain ∨ r = .unsupported
  | .destroy, r => r = .ok .plain
  | .submit _ _ _, r => r = .noPacket ∨ ∃ p, r = .packet p
  | .reset, r => r = .ok .plain
  | .qRate, r => ∃ v, r = .ok (.value v)
  | .qChannels, r => ∃ v, r = .ok (.value v)
  | .qNext, r => ∃ v, r = .ok (.value v)
  | .qMax, r => ∃ v, r = .ok (.value v)
  | .qBitrate, r => ∃ v, r = .ok (.value v)
  | .qName, r => ∃ n, r = .ok (.name n)
  | .resolve _, r => (∃ fd, (fd = 20 ∨ fd = 30) ∧ r = .ok (.resFd fd)) ∨ r = .unsupported
  | .capability _, r => (∃ rate ch lo hi, r = .ok (.capability rate ch lo hi)) ∨ r = .unsupported

/-! ## What a rule can read -/

/-- The two blocks agree on everything that some rule may read before a rule writes it
(10_state.md R29, 93_implementation_defined.md I11): `LIFE` and the fault registers always; in READY
also the configuration, the counter, the Codec Core's state, the buffered samples, and `TS0` while it
is valid. -/
structure SameReadable (b c : Block) : Prop where
  life : b.life = c.life
  faultCause : b.faultCause = c.faultCause
  faultOpc : b.faultOpc = c.faultOpc
  faultInfo : b.faultInfo = c.faultInfo
  cfgFd : b.life = .ready → b.cfgFd = c.cfgFd
  cfgPt : b.life = .ready → b.cfgPt = c.cfgPt
  counter : b.life = .ready → b.counter = c.counter
  cs : b.life = .ready → b.cs = c.cs
  ts0 : b.life = .ready → b.ts0Valid = true → b.ts0 = c.ts0
  buf : b.life = .ready → ∀ a, a < b.occ → b.buf.read a = c.buf.read a

/-- The two steps have the same outcome as far as a host or a later rule can tell. -/
def sameOutcome : Result → Result → Prop
  | .next s, .next t => SameReadable s.blk t.blk ∧ s.port = t.port ∧ s.resp = t.resp
  | .fault f, .fault g => f = g
  | .refused r, .refused q => r = q
  | .next _, .fault _ => False
  | .next _, .refused _ => False
  | .fault _, .next _ => False
  | .fault _, .refused _ => False
  | .refused _, .next _ => False
  | .refused _, .fault _ => False

/-! ## Sequences of commands -/

/-- Commands performed one after another, with their responses and the state after the last; none
where some command returns no response (it entered a fault, or the block had no step). -/
def performAll : List Instr → State → Option (List Response × State)
  | [], s => some ([], s)
  | i :: is, s =>
    match exec i s with
    | .next t =>
      match t.resp with
      | none => none
      | some r =>
        match performAll is t with
        | none => none
        | some (rs, u) => some (r :: rs, u)
    | .fault _ => none
    | .refused _ => none

/-- One sub-frame as a host submits it: its timestamp and its samples. -/
abbrev SubFrame := Word32 × List Sample

/-- The SUBMIT commands, each with `LEN = 80`, of a sequence of sub-frames (41_packetizer.md R76). -/
def submits (fs : List SubFrame) : List Instr := fs.map (fun f => .submit f.1 80 f.2)

/-- Every sub-frame holds 80 samples. -/
def wholeSubFrames (fs : List SubFrame) : Prop := ∀ f ∈ fs, f.2.length = 80

/-- The response is `PACKET`. -/
def isPacket : Response → Bool
  | .packet _ => true
  | .ok _ => false
  | .noPacket => false
  | .unsupported => false

/-! ## The end of a run -/

/-- The run of a finite sequence of host commands issued from power-on reset
(70_reset_and_hazards.md R124). -/
def runOf (cs : List Command) : Result :=
  Host.Core.run Sys2Proof.core cs.length (State.reset.setPort (cs.map .command))

/-- The run ends well (70_reset_and_hazards.md R124): its last command has returned a response, and the
block is not FAULTED. -/
def endsWell (cs : List Command) : Prop :=
  ∃ t, runOf cs = .next t ∧ t.resp.isSome = true ∧ t.blk.life ≠ .faulted

end Sys2Proof.Safety
end

