-- ==== Sys2Proof/Certificates/Slice0/Obligations.lean ====
section
/-! DEFINITION. The statements for the provers. Each docstring names the rule of spec/ it formalises;
a docstring that names a log entry says that the statement rests on a choice of the model's. -/

open Sys2Proof Sys2Proof.Machine Sys2Proof.Safety

/-! ## Encoding -/

/-- A few command words, written out bit by bit from 30_encoding.md R45 and R46, decode to the commands
they stand for, with the operands taken from the bundle (R47). -/
def Obligations.SampleWordsDecode : Prop :=
  ∀ b : Bundle,
    decode ⟨0b00000001#8, b⟩ = .ok (.constructCfg b.pt b.fd) ∧
    decode ⟨0b00000010#8, b⟩ = .ok (.constructLegacy b.pt b.legRate b.legCh b.legFd) ∧
    decode ⟨0b00000110#8, b⟩ = .ok .reset ∧
    decode ⟨0b00001011#8, b⟩ = .ok .qBitrate ∧
    (b.samples.length = b.len.toNat →
      decode ⟨0b00000101#8, b⟩ = .ok (.submit b.ts b.len b.samples)) ∧
    (b.fmt.name.length ≤ 255 → decode ⟨0b00001101#8, b⟩ = .ok (.resolve b.fmt))

/-- Decoding an encoded well-formed command gives it back, with every operand at every value. -/
def Obligations.DecodeOfEncodeIsSame : Prop :=
  ∀ i : Instr, WellFormed i = true → decode (encode i) = .ok i

/-- A decoded command is well-formed, its own word is the word it was decoded from, and encoding it
loses nothing. -/
def Obligations.DecodedCommandReencodes : Prop :=
  ∀ (c : Command) (i : Instr), decode c = .ok i →
    WellFormed i = true ∧ (encode i).word = c.word ∧ decode (encode i) = .ok i ∧
      sameListedFields (opcField c.word) (encode i).bundle c.bundle

/-- R47: two commands of one word whose bundles agree on the fields listed for it decode alike. -/
def Obligations.UnlistedFieldsIgnored : Prop :=
  ∀ (w : Byte) (b c : Bundle), sameListedFields (w.extractLsb' 0 4) b c → decode ⟨w, b⟩ = decode ⟨w, c⟩

/-- R59, the encodings: a word spells a command exactly when its reserved bits are zero and its opcode
is neither 0x0 nor 0xF, and every operand bundle the spec can express is decoded with it. -/
def Obligations.EveryLegalWordDecodes : Prop :=
  ∀ c : Command,
    ((∃ i : Instr, i.word = c.word) ↔
      (c.word.extractLsb' 4 4 = 0#4 ∧ c.word.extractLsb' 0 4 ≠ 0x0#4 ∧ c.word.extractLsb' 0 4 ≠ 0xF#4)) ∧
    ((∃ i : Instr, i.word = c.word) → c.bundle.samples.length = c.bundle.len.toNat →
      c.bundle.fmt.name.length ≤ 255 → ∃ i : Instr, decode c = .ok i ∧ i.word = c.word)

/-- R59, the fault: a word with OPC 0x0, OPC 0xF or RSV not zero raises F_ILLEGAL_COMMAND, whatever its
bundle holds, with FAULT_INFO the word zero-extended. -/
def Obligations.IllegalWordFaults : Prop :=
  ∀ (s : State) (c : Command) (rest : List HostEvent),
    s.port = .command c :: rest → s.blk.life ≠ .faulted →
    (c.word.extractLsb' 4 4 ≠ 0#4 ∨ c.word.extractLsb' 0 4 = 0x0#4 ∨ c.word.extractLsb' 0 4 = 0xF#4) →
    step s = .next (faultState 1 (c.word.extractLsb' 0 4) (c.word.setWidth 16)
      { s with port := rest })

/-! ## One step -/

/-- A step with a command that decodes is that command performed, with the command taken off the port
and nothing else around it. -/
def Obligations.StepRunsDecodedCommand : Prop :=
  ∀ (s : State) (c : Command) (rest : List HostEvent) (i : Instr),
    s.port = .command c :: rest → s.blk.life ≠ .faulted → decode c = .ok i →
    step s = exec i { s with port := rest }

/-- R112: with no command issued, a block that is not FAULTED keeps all its state. That idling is a
step at all is the model's choice (log 3). -/
def Obligations.IdleKeepsAllState : Prop :=
  ∀ s : State, s.port = [] → s.blk.life ≠ .faulted → step s = .next s

/-- R104: in FAULTED no command has a step, and only power-on reset leaves it. -/
def Obligations.FaultedBlockHasNoStep : Prop :=
  ∀ s : State, s.blk.life = .faulted →
    (∀ i, exec i s = .fault .blockFaulted) ∧
    (∀ c rest, s.port = .command c :: rest → step s = .fault .blockFaulted) ∧
    (∀ t, step s = .next t → ∃ rest, s.port = .powerOnReset :: rest) ∧
    (∀ rest, s.port = .powerOnReset :: rest → ∃ t, step s = .next t ∧ t.blk.life = .unconstructed)

/-- R114: power-on reset, from every state: the registers R114 writes, and no state of the block
survives (two blocks that are reset are the same afterwards). The last clause also fixes the registers
that R114 leaves unspecified: that they hold one value is the model's choice (log 1, and log 2 for the
buffer). -/
def Obligations.PowerOnResetEffect : Prop :=
  ∀ (s : State) (rest : List HostEvent), s.port = .powerOnReset :: rest →
    ∃ t, step s = .next t ∧
      t.blk.life = .unconstructed ∧ t.blk.faultCause = 0 ∧ t.blk.faultOpc = 0 ∧ t.blk.faultInfo = 0 ∧
      t.blk.cs = none ∧
      ∀ (s' : State) (rest' : List HostEvent), s'.port = .powerOnReset :: rest' →
        ∃ t', step s' = .next t' ∧ t'.blk = t.blk

/-- R29, the power-on column: what reset leaves in the registers the spec gives a value. -/
def Obligations.ResetRegisterValues : Prop :=
  State.reset.blk.life = .unconstructed ∧ State.reset.blk.cs = none ∧
  State.reset.blk.faultCause = 0 ∧ State.reset.blk.faultOpc = 0 ∧ State.reset.blk.faultInfo = 0

/-- The invariants between commands hold at power-on reset. -/
def Obligations.ResetMeetsInvariants : Prop := Inv State.reset.blk

/-- R30 (a, b, c, e), with R22, R25 and R96: every step keeps the invariants between commands. -/
def Obligations.StepKeepsInvariants : Prop :=
  ∀ s t : State, Inv s.blk → step s = .next t → Inv t.blk

/-- R123, the fairness assumption: from a state that meets the invariants, every command issued to a
block that is not in FAULTED completes; the only bundles that do not are those R49 and R53 say cannot
be presented. -/
def Obligations.IssuedCommandCompletes : Prop :=
  ∀ (s : State) (c : Command) (rest : List HostEvent),
    Inv s.blk → s.blk.life ≠ .faulted → s.port = .command c :: rest →
    c.bundle.samples.length = c.bundle.len.toNat → c.bundle.fmt.name.length ≤ 255 →
    ∃ t, step s = .next t ∧ t.port = rest ∧ (t.resp = none ↔ t.blk.life = .faulted)

/-! ## Format Resolver and capability query -/

/-- R63 and R64: RESOLVE answers what the resolver gives, writes no register, and is accepted with and
without an instance. -/
def Obligations.ResolveAnswersResolver : Prop :=
  (∀ b : Bundle, b.fmt.name.length ≤ 255 → decode ⟨0x0D#8, b⟩ = .ok (.resolve b.fmt)) ∧
  malformedWordFaults 0xD#4 ∧
  ∀ (fmt : FormatDescriptor) (s : State), s.blk.life ≠ .faulted →
    exec (.resolve fmt) s = .next (responded
      (if Config.nameAccept fmt.name = true ∧ fmt.rate.toNat = 8000 ∧ fmt.ch.toNat = 1 then
        if fmt.frPresent = false then .ok (.resFd 20)
        else if fmt.frWf = true ∧ fmt.frVal.toNat = 20 then .ok (.resFd 20)
        else if fmt.frWf = true ∧ fmt.frVal.toNat = 30 then .ok (.resFd 30)
        else .unsupported
      else .unsupported) s)

/-- R66: CAPABILITY answers rate 8000, one channel and the bitrate range of the frame duration the
resolver gives, writes no register; and R67: the range's ends are in order. -/
def Obligations.CapabilityAnswersRange : Prop :=
  (∀ b : Bundle, b.fmt.name.length ≤ 255 → decode ⟨0x0E#8, b⟩ = .ok (.capability b.fmt)) ∧
  malformedWordFaults 0xE#4 ∧
  (∀ (fmt : FormatDescriptor) (s : State), s.blk.life ≠ .faulted →
    exec (.capability fmt) s = .next (responded
      (match resolve fmt with
       | .unsupported => .unsupported
       | .cfg fd => .ok (.capability 8000 1 (Config.brMin fd.toNat) (Config.brMax fd.toNat))) s)) ∧
  ∀ fd : Nat, (Config.brMin fd).toNat ≤ (Config.brMax fd).toNat

/-- R65: RESOLVE, CAPABILITY and CONSTRUCT_FMT agree on every descriptor; a configuration is 20 or 30
ms; and a present framing parameter that is not recognised is never given the default. -/
def Obligations.ResolverUsersAgree : Prop :=
  ∀ (fmt : FormatDescriptor) (pt : Byte) (s : State), s.blk.life = .unconstructed →
    ((∃ fd : Word16, (fd = 20 ∨ fd = 30) ∧
        exec (.resolve fmt) s = .next (responded (.ok (.resFd fd)) s) ∧
        exec (.capability fmt) s = .next (responded
          (.ok (.capability 8000 1 (Config.brMin fd.toNat) (Config.brMax fd.toNat))) s) ∧
        ∃ t, exec (.constructFmt pt fmt) s = .next t ∧ t.resp = some (.ok .plain) ∧
          t.blk.life = .ready ∧ t.blk.cfgFd = fd) ∨
      (exec (.resolve fmt) s = .next (responded .unsupported s) ∧
        exec (.capability fmt) s = .next (responded .unsupported s) ∧
        exec (.constructFmt pt fmt) s = .next (responded .unsupported s))) ∧
    (fmt.frPresent = true →
      (fmt.frWf = false ∨ (fmt.frVal.toNat ≠ 20 ∧ fmt.frVal.toNat ≠ 30)) →
      exec (.constructFmt pt fmt) s = .next (responded .unsupported s))

/-! ## Construction and destruction -/

/-- R89 with R91: CONSTRUCT_CFG from UNCONSTRUCTED, for every frame duration. From READY it raises
F_ALREADY_CONSTRUCTED. -/
def Obligations.ConstructCfgEffect : Prop :=
  ∀ (pt : Byte) (fd : Word16) (s : State),
    (∀ b : Bundle, decode ⟨0x01#8, b⟩ = .ok (.constructCfg b.pt b.fd)) ∧
    malformedWordFaults 0x1#4 ∧
    (s.blk.life = .unconstructed → (fd.toNat = 20 ∨ fd.toNat = 30) →
      ∃ t, exec (.constructCfg pt fd) s = .next t ∧ Constructed fd pt s t) ∧
    (s.blk.life = .unconstructed → ¬ (fd.toNat = 20 ∨ fd.toNat = 30) →
      exec (.constructCfg pt fd) s = .next (responded .unsupported s)) ∧
    (s.blk.life = .ready → exec (.constructCfg pt fd) s = .next (faultState 3 0x1 0x0001 s))

/-- R90 with R91: CONSTRUCT_LEGACY, for every rate, channel count and frame duration. -/
def Obligations.ConstructLegacyEffect : Prop :=
  ∀ (pt : Byte) (rate : Word32) (ch : Byte) (fd : Word16) (s : State),
    (∀ b : Bundle, decode ⟨0x02#8, b⟩ = .ok (.constructLegacy b.pt b.legRate b.legCh b.legFd)) ∧
    malformedWordFaults 0x2#4 ∧
    (s.blk.life = .unconstructed →
      ((fd.toNat = 20 ∨ fd.toNat = 30) ∧ rate.toNat = 8000 ∧ ch.toNat = 1) →
      ∃ t, exec (.constructLegacy pt rate ch fd) s = .next t ∧ Constructed fd pt s t) ∧
    (s.blk.life = .unconstructed →
      ¬ ((fd.toNat = 20 ∨ fd.toNat = 30) ∧ rate.toNat = 8000 ∧ ch.toNat = 1) →
      exec (.constructLegacy pt rate ch fd) s = .next (responded .unsupported s)) ∧
    (s.blk.life = .ready →
      exec (.constructLegacy pt rate ch fd) s = .next (faultState 3 0x2 0x0002 s))

/-- R92 with R91 and R63: CONSTRUCT_FMT, for every descriptor, with the resolver's conditions written out. -/
def Obligations.ConstructFmtEffect : Prop :=
  ∀ (pt : Byte) (fmt : FormatDescriptor) (s : State),
    (∀ b : Bundle, b.fmt.name.length ≤ 255 →
      decode ⟨0x03#8, b⟩ = .ok (.constructFmt b.pt b.fmt)) ∧
    malformedWordFaults 0x3#4 ∧
    (s.blk.life = .unconstructed →
      ∃ t, exec (.constructFmt pt fmt) s = .next t ∧
        (if Config.nameAccept fmt.name = true ∧ fmt.rate.toNat = 8000 ∧ fmt.ch.toNat = 1 then
          if fmt.frPresent = false then Constructed 20 pt s t
          else if fmt.frWf = true ∧ fmt.frVal.toNat = 20 then Constructed 20 pt s t
          else if fmt.frWf = true ∧ fmt.frVal.toNat = 30 then Constructed 30 pt s t
          else t = responded .unsupported s
        else t = responded .unsupported s)) ∧
    (s.blk.life = .ready → exec (.constructFmt pt fmt) s = .next (faultState 3 0x3 0x0003 s))

/-- R93: the three construction forms reach the same state and give the same response. -/
def Obligations.ConstructionFormsEquivalent : Prop :=
  ∀ (p : Byte) (f : Word16) (fmt : FormatDescriptor) (s : State), s.blk.life = .unconstructed →
    exec (.constructLegacy p 8000 1 f) s = exec (.constructCfg p f) s ∧
    (exec (.resolve fmt) s = .next (responded (.ok (.resFd f)) s) →
      exec (.constructFmt p fmt) s = exec (.constructCfg p f) s)

/-- R94: a construction that responds UNSUPPORTED changes no register, and a later construction may
succeed. -/
def Obligations.FailedConstructionHasNoEffect : Prop :=
  ∀ (i : Instr) (s t : State), constructs i = true → exec i s = .next t →
    t.resp = some .unsupported →
    t.blk = s.blk ∧ ∀ pt : Byte, ∃ u, exec (.constructCfg pt 20) t = .next u ∧
      u.blk.life = .ready ∧ u.resp = some (.ok .plain)

/-- R95: DESTROY writes LIFE and CS alone and emits nothing; without an instance it raises
F_NO_INSTANCE. That the registers R95 calls unspecified hold their old values is the model's choice
(log 11). -/
def Obligations.DestroyEffect : Prop :=
  ∀ s : State,
    (∀ b : Bundle, decode ⟨0x04#8, b⟩ = .ok .destroy) ∧
    malformedWordFaults 0x4#4 ∧
    (s.blk.life = .ready → exec .destroy s = .next
      { blk := { s.blk with life := .unconstructed, cs := none }
        port := s.port
        resp := some (.ok .plain) }) ∧
    (s.blk.life = .unconstructed → exec .destroy s = .next (faultState 2 0x4 0x0004 s)) ∧
    ∀ (t u : State) (i : Instr), exec .destroy s = .next t → constructs i = true →
      exec i t = .next u → u.resp = some (.ok .plain) →
      u.blk.counter = 0 ∧ u.blk.cs = some (Config.codecInit ⟨u.blk.cfgFd.toNat, 8000, 1⟩)

/-- R116: a new instance starts EMPTY with a fresh Codec Core, and its first SUBMIT records TS0. -/
def Obligations.NewInstanceStartsEmpty : Prop :=
  ∀ (i : Instr) (s t : State), constructs i = true → exec i s = .next t →
    t.resp = some (.ok .plain) →
    t.blk.packetState = some .empty ∧
    t.blk.cs = some (Config.codecInit ⟨t.blk.cfgFd.toNat, 8000, 1⟩) ∧
    ∀ (ts : Word32) (samples : List Sample), samples.length = 80 →
      ∃ u, exec (.submit ts 80 samples) t = .next u ∧ u.blk.ts0 = ts ∧ u.resp = some .noPacket

/-! ## The checks on LIFE -/

/-- R100: what each state of `LIFE` accepts, for every command. -/
def Obligations.LifeDecidesAcceptance : Prop :=
  ∀ (i : Instr) (s : State),
    (s.blk.life = .unconstructed → needsInstance i = true →
      exec i s = .next (faultState 2 i.opc (i.word.setWidth 16) s)) ∧
    (s.blk.life = .ready → constructs i = true →
      exec i s = .next (faultState 3 i.opc (i.word.setWidth 16) s)) ∧
    (s.blk.life = .unconstructed → needsInstance i = false →
      ∃ t, exec i s = .next t ∧ t.blk.life ≠ .faulted ∧ t.resp ≠ none) ∧
    (s.blk.life = .ready → constructs i = false → ∀ t, exec i s = .next t →
      t.blk.life = .faulted → t.blk.faultCause ≠ 2 ∧ t.blk.faultCause ≠ 3 ∧
        ∃ ts len samples, i = .submit ts len samples) ∧
    (s.blk.life = .ready → constructs i = false → Inv s.blk → WellFormed i = true →
      ∃ t, exec i s = .next t) ∧
    (s.blk.life = .faulted → exec i s = .fault .blockFaulted)

/-! ## SUBMIT -/

/-- R72 and R73: a SUBMIT below the target responds NO_PACKET, records the timestamp exactly when the
machine is EMPTY, stores its 80 samples at `COUNTER * 80`, first sample lowest, and changes no other
buffer element and no other register. The write never passes index 239. -/
def Obligations.SubmitBuffersSubFrame : Prop :=
  ∀ (ts : Word32) (len : Word16) (samples : List Sample) (s : State),
    s.blk.life = .ready → len.toNat = 80 → samples.length = 80 →
    s.blk.counter.toNat + 1 < target s.blk.cfgFd →
    (∃ t, exec (.submit ts len samples) s = .next t ∧
      t.resp = some .noPacket ∧ t.port = s.port ∧
      t.blk.counter = s.blk.counter + 1 ∧
      t.blk.ts0 = (if s.blk.counter = 0 then ts else s.blk.ts0) ∧
      (∀ k, k < 80 → t.blk.buf.read (s.blk.counter.toNat * 80 + k) = samples[k]?) ∧
      (∀ a, a < s.blk.counter.toNat * 80 ∨ s.blk.counter.toNat * 80 + 80 ≤ a →
        t.blk.buf.read a = s.blk.buf.read a) ∧
      t.blk.life = .ready ∧ t.blk.cfgFd = s.blk.cfgFd ∧ t.blk.cfgPt = s.blk.cfgPt ∧
      t.blk.cs = s.blk.cs ∧ t.blk.faultCause = s.blk.faultCause ∧
      t.blk.faultOpc = s.blk.faultOpc ∧ t.blk.faultInfo = s.blk.faultInfo) ∧
    (Inv s.blk → s.blk.counter.toNat * 80 + 80 ≤ 240)

/-- R70, R74 and R75: a SUBMIT that reaches the target gives the Codec Core the whole packet once, in
arrival order, and takes one of three courses by the core's answer alone. The state after the append
is written out; the samples it holds are those of R73. That CS, TS0 and the configuration keep their
values after F_CODEC and F_OUTPUT_SIZE, and TS0 after a packet, where the spec calls them unspecified,
is the model's choice (log 11). -/
def Obligations.SubmitCompletesPacket : Prop :=
  ∀ (ts : Word32) (len : Word16) (samples : List Sample) (s : State),
    Inv s.blk → s.blk.life = .ready → len.toNat = 80 → samples.length = 80 →
    s.blk.counter.toNat + 1 = target s.blk.cfgFd →
    ∃ (c : Config.CodecState) (frame : List Sample) (t : State),
      s.blk.cs = some c ∧
      frame.length = pktSamples s.blk.cfgFd ∧
      (∀ k, k < s.blk.counter.toNat * 80 → s.blk.buf.read k = frame[k]?) ∧
      (∀ k, k < 80 → frame[s.blk.counter.toNat * 80 + k]? = samples[k]?) ∧
      exec (.submit ts len samples) s = .next t ∧
      t.port = s.port ∧ t.blk.cfgFd = s.blk.cfgFd ∧ t.blk.cfgPt = s.blk.cfgPt ∧
      t.blk.ts0 = s.blk.ts0 ∧
      (match Config.codecEncode c frame with
       | .fail =>
         t.resp = none ∧ t.blk.life = .faulted ∧ t.blk.faultCause = 5 ∧ t.blk.faultOpc = 0x5 ∧
           t.blk.faultInfo = 0 ∧ t.blk.cs = some c
       | .ok c' bytes speech =>
         if bytes.length = Config.bPkt s.blk.cfgFd.toNat then
           t.resp = some (.packet
             { bytes := bytes, len := BitVec.ofNat 16 (Config.bPkt s.blk.cfgFd.toNat)
               ts := s.blk.ts0, pt := s.blk.cfgPt
               speech := match speech with
                 | .none => 0b00#2
                 | .inactive => 0b01#2
                 | .active => 0b10#2 }) ∧
           t.blk.packetState = some .empty ∧ t.blk.cs = some c' ∧
           t.blk.faultCause = s.blk.faultCause ∧ t.blk.faultOpc = s.blk.faultOpc ∧
           t.blk.faultInfo = s.blk.faultInfo
         else
           t.resp = none ∧ t.blk.life = .faulted ∧ t.blk.faultCause = 6 ∧ t.blk.faultOpc = 0x5 ∧
             t.blk.faultInfo = BitVec.ofNat 16 bytes.length ∧ t.blk.cs = some c)

/-- R71, R96 (code 4) and R101: any length but 80, zero among them, faults before any state changes;
and R96 (code 2): so does every SUBMIT without an instance, for its own reason. -/
def Obligations.SubmitWrongLengthFaults : Prop :=
  ∀ (ts : Word32) (len : Word16) (samples : List Sample) (s : State),
    (s.blk.life = .ready → len.toNat ≠ 80 →
      exec (.submit ts len samples) s = .next (faultState 4 0x5 len s)) ∧
    (s.blk.life = .unconstructed →
      exec (.submit ts len samples) s = .next (faultState 2 0x5 0x0005 s))

/-- The frame of SUBMIT, on every path that answers a next state: the configuration is kept, TS0 changes
only in EMPTY, and no buffer element changes outside the 80 at `COUNTER * 80` (none at all where the
length check or the instance check faults). That the configuration, TS0
and the buffer are kept on the paths into F_CODEC and F_OUTPUT_SIZE, after which R103 leaves them
unspecified, is the model's choice (log 11). -/
def Obligations.SubmitFrame : Prop :=
  ∀ (ts : Word32) (len : Word16) (samples : List Sample) (s t : State), samples.length = len.toNat →
    exec (.submit ts len samples) s = .next t →
    t.port = s.port ∧ t.blk.cfgFd = s.blk.cfgFd ∧ t.blk.cfgPt = s.blk.cfgPt ∧
    (s.blk.counter ≠ 0 → t.blk.ts0 = s.blk.ts0) ∧
    (t.blk.life ≠ .faulted → t.blk.faultCause = s.blk.faultCause ∧
      t.blk.faultOpc = s.blk.faultOpc ∧ t.blk.faultInfo = s.blk.faultInfo) ∧
    (∀ a, (s.blk.life ≠ .ready ∨ len.toNat ≠ 80 ∨ a < s.blk.counter.toNat * 80 ∨
        s.blk.counter.toNat * 80 + 80 ≤ a) → t.blk.buf.read a = s.blk.buf.read a)

/-- R69 and R56: every packet holds exactly the required number of bytes, says so, carries the
timestamp and payload type held by the block, and never the reserved speech code; with
CODEC_REPORTS_SPEECH false the code is 0b00 (10_state R24). That PKT_LEN holds B_PKT without loss rests
on the bound of log 7, and that TS0 still holds the packet's timestamp after the command, where R19
leaves it unspecified, on log 11. -/
def Obligations.PacketFieldsAgree : Prop :=
  ∀ (i : Instr) (s t : State) (p : Packet), exec i s = .next t → t.resp = some (.packet p) →
    p.bytes.length = Config.bPkt s.blk.cfgFd.toNat ∧ p.len.toNat = p.bytes.length ∧
    p.pt = s.blk.cfgPt ∧ p.ts = t.blk.ts0 ∧ p.speech ≠ 0b11#2 ∧
    (Config.codecReportsSpeech = false → p.speech = 0b00#2)

/-- R75 and R20: no command ends with the packetization state machine in FULL. -/
def Obligations.NoCommandEndsFull : Prop :=
  ∀ s t : State, Inv s.blk → step s = .next t → t.blk.packetState ≠ some .full

/-! ## RESET -/

/-- R78: RESET in any buffering state; without an instance it raises F_NO_INSTANCE. R78 writes neither
TS0 nor BUF and calls them unspecified afterwards: that they keep their values is the model's choice
(log 11). -/
def Obligations.ResetEffect : Prop :=
  ∀ s : State,
    (∀ b : Bundle, decode ⟨0x06#8, b⟩ = .ok .reset) ∧
    malformedWordFaults 0x6#4 ∧
    (s.blk.life = .ready → ∀ c, s.blk.cs = some c → exec .reset s = .next
      { blk := { s.blk with counter := 0, cs := some (Config.codecReset c) }
        port := s.port
        resp := some (.ok .plain) }) ∧
    (s.blk.life = .unconstructed → exec .reset s = .next (faultState 2 0x6 0x0006 s))

/-! ## Queries -/

/-- R80 and R81: the sample rate and the channel count of an instance. -/
def Obligations.RateAndChannelQueries : Prop :=
  ∀ s : State,
    (∀ b : Bundle, decode ⟨0x07#8, b⟩ = .ok .qRate ∧ decode ⟨0x08#8, b⟩ = .ok .qChannels) ∧
    malformedWordFaults 0x7#4 ∧ malformedWordFaults 0x8#4 ∧
    (s.blk.life = .ready → exec .qRate s = .next (responded (.ok (.value 8000)) s) ∧
      exec .qChannels s = .next (responded (.ok (.value 1)) s)) ∧
    (s.blk.life = .unconstructed → exec .qRate s = .next (faultState 2 0x7 0x0007 s) ∧
      exec .qChannels s = .next (faultState 2 0x8 0x0008 s))

/-- R82: Q_NEXT reports the target less the counter, which lies in 1..TARGET and equals TARGET in
EMPTY, right after a packet and right after RESET. -/
def Obligations.NextQueryReportsRemaining : Prop :=
  ∀ s : State,
    (∀ b : Bundle, decode ⟨0x09#8, b⟩ = .ok .qNext) ∧
    malformedWordFaults 0x9#4 ∧
    (s.blk.life = .ready → ∃ v : Word32, exec .qNext s = .next (responded (.ok (.value v)) s) ∧
      v.toNat = s.blk.cfgFd.toNat / 10 - s.blk.counter.toNat ∧
      (Inv s.blk → 1 ≤ v.toNat ∧ v.toNat ≤ target s.blk.cfgFd) ∧
      (s.blk.packetState = some .empty → v.toNat = target s.blk.cfgFd)) ∧
    (s.blk.life = .unconstructed → exec .qNext s = .next (faultState 2 0x9 0x0009 s)) ∧
    ∀ (i : Instr) (t : State), exec i s = .next t → t.blk.life = .ready →
      (i = .reset ∨ ∃ p, t.resp = some (.packet p)) →
      ∃ v : Word32, exec .qNext t = .next (responded (.ok (.value v)) t) ∧
        v.toNat = target t.blk.cfgFd

/-- R83: Q_MAX reports the target: 2 for 20 ms and 3 for 30 ms, at every buffering depth. -/
def Obligations.MaxQueryReportsTarget : Prop :=
  ∀ s : State,
    (∀ b : Bundle, decode ⟨0x0A#8, b⟩ = .ok .qMax) ∧
    malformedWordFaults 0xA#4 ∧
    (s.blk.life = .ready → ∃ v : Word32, exec .qMax s = .next (responded (.ok (.value v)) s) ∧
      v.toNat = s.blk.cfgFd.toNat / 10 ∧
      (s.blk.cfgFd = 20 → v = 2) ∧ (s.blk.cfgFd = 30 → v = 3)) ∧
    (s.blk.life = .unconstructed → exec .qMax s = .next (faultState 2 0xA 0x000A s))

/-- R84: Q_BITRATE reports `floor(B_PKT * 8 * 1000 / CFG_FD)`, at every buffering depth. -/
def Obligations.BitrateQueryReportsFloor : Prop :=
  ∀ s : State,
    (∀ b : Bundle, decode ⟨0x0B#8, b⟩ = .ok .qBitrate) ∧
    malformedWordFaults 0xB#4 ∧
    (s.blk.life = .ready → exec .qBitrate s = .next (responded (.ok (.value
      (BitVec.ofNat 32 (Config.bPkt s.blk.cfgFd.toNat * 8 * 1000 / s.blk.cfgFd.toNat)))) s)) ∧
    (s.blk.life = .unconstructed → exec .qBitrate s = .next (faultState 2 0xB 0x000B s))

/-- R86: Q_NAME reports the identification constant with and without an instance. -/
def Obligations.NameQueryReportsConstant : Prop :=
  ∀ s : State,
    (∀ b : Bundle, decode ⟨0x0C#8, b⟩ = .ok .qName) ∧
    malformedWordFaults 0xC#4 ∧
    (s.blk.life ≠ .faulted → exec .qName s = .next (responded (.ok (.name Config.codecName)) s))

/-- R87: a query leaves every register as it was, and any number of queries may be put before other
commands without changing the responses or the end state of those. -/
def Obligations.QueriesChangeNothing : Prop :=
  ∀ (qs : List Instr) (s : State), s.blk.life = .ready → (∀ q ∈ qs, isQuery q = true) →
    ∃ rs u, performAll qs s = some (rs, u) ∧ rs.length = qs.length ∧ u.blk = s.blk ∧
      ∀ is : List Instr, is ≠ [] →
        performAll (qs ++ is) s = (performAll is s).map (fun p => (rs ++ p.1, p.2))

/-- R85: none of the block's computations wraps or truncates, from a state that meets the invariants.
The fit of VALUE rests on the bound of log 7. -/
def Obligations.ArithmeticNeverWraps : Prop :=
  ∀ s : State, Inv s.blk → s.blk.life = .ready →
    s.blk.cfgFd.toNat % 10 = 0 ∧ s.blk.cfgFd.toNat ≠ 0 ∧
    (s.blk.counter + 1).toNat = s.blk.counter.toNat + 1 ∧
    s.blk.counter.toNat ≤ s.blk.cfgFd.toNat / 10 ∧
    s.blk.counter.toNat * 80 ≤ 160 ∧
    ∃ v : Word32, exec .qBitrate s = .next (responded (.ok (.value v)) s) ∧
      v.toNat = Config.bPkt s.blk.cfgFd.toNat * 8000 / s.blk.cfgFd.toNat

/-! ## Faults and responses of every command -/

/-- R103 and R96: a command that enters a fault returns no response, records its own opcode, and
records a cause and information as the table of R96 says; the decode faults and F_CONTRACT_LENGTH
change no other register. R101: F_CODEC and F_OUTPUT_SIZE are entered only by a completing SUBMIT, and
by the Codec Core's answer on the packet that this SUBMIT completes. -/
def Obligations.FaultEntryRecordsCause : Prop :=
  ∀ (i : Instr) (s t : State), exec i s = .next t → t.blk.life = .faulted →
    t.resp = none ∧ t.port = s.port ∧ t.blk.faultOpc = i.opc ∧
    ((t.blk.faultCause = 2 ∧ needsInstance i = true ∧ s.blk.life = .unconstructed ∧
        t.blk.faultInfo = i.word.setWidth 16 ∧
        t = faultState 2 i.opc (i.word.setWidth 16) s) ∨
     (t.blk.faultCause = 3 ∧ constructs i = true ∧ s.blk.life = .ready ∧
        t.blk.faultInfo = i.word.setWidth 16 ∧
        t = faultState 3 i.opc (i.word.setWidth 16) s) ∨
     (∃ ts len samples, i = .submit ts len samples ∧ s.blk.life = .ready ∧
       ((t.blk.faultCause = 4 ∧ len.toNat ≠ 80 ∧ t.blk.faultInfo = len ∧
           t = faultState 4 0x5 len s) ∨
        (t.blk.faultCause = 5 ∧ len.toNat = 80 ∧ t.blk.faultInfo = 0 ∧
          target s.blk.cfgFd ≤ (s.blk.counter + 1).toNat ∧
          (Inv s.blk → s.blk.counter.toNat + 1 = target s.blk.cfgFd) ∧
          ∃ c frame, s.blk.cs = some c ∧
            memRead (appendSubFrame ts samples s.blk).buf 0 (pktSamples s.blk.cfgFd) = some frame ∧
            Config.codecEncode c frame = .fail) ∨
        (t.blk.faultCause = 6 ∧ len.toNat = 80 ∧
          target s.blk.cfgFd ≤ (s.blk.counter + 1).toNat ∧
          (Inv s.blk → s.blk.counter.toNat + 1 = target s.blk.cfgFd) ∧
          ∃ c c' frame bytes speech, s.blk.cs = some c ∧
            memRead (appendSubFrame ts samples s.blk).buf 0 (pktSamples s.blk.cfgFd) = some frame ∧
            Config.codecEncode c frame = .ok c' bytes speech ∧
            bytes.length ≠ Config.bPkt s.blk.cfgFd.toNat ∧
            t.blk.faultInfo = BitVec.ofNat 16 bytes.length))))

/-- R55 and R57: which response each command may return, with its `STATUS` code; a command that faults
returns none. -/
def Obligations.ResponseFitsCommand : Prop :=
  ∀ (i : Instr) (s t : State), exec i s = .next t →
    (t.blk.life = .faulted → t.resp = none) ∧
    (t.blk.life ≠ .faulted → ∃ r, t.resp = some r ∧ responseFits i r ∧
      (r.status = 0x0#4 ↔ ∃ f, r = .ok f) ∧ (r.status = 0x1#4 ↔ r = .noPacket) ∧
      (r.status = 0x2#4 ↔ ∃ p, r = .packet p) ∧ (r.status = 0x3#4 ↔ r = .unsupported))

/-- R58 and R99: a command that gets no response shows FAULTED on the status port, with the opcode and
the cause of the fault, and the level a host may wire to an interrupt line is set exactly then. -/
def Obligations.StatusPortShowsFault : Prop :=
  ∀ (s t : State) (c : Command) (rest : List HostEvent), Inv s.blk →
    s.port = .command c :: rest → step s = .next t →
    (t.resp = none ↔ (statusPort t).life = 0b10#2) ∧
    (t.resp = none → (statusPort t).faultOpc = c.word.extractLsb' 0 4) ∧
    (faultLine t = true ↔ (statusPort t).faultCause ≠ 0) ∧
    ((statusPort t).life ≠ 0b11#2)

/-- R23 and R105: the fault registers change only at fault entry and at power-on reset; once a cause is
recorded, only power-on reset is a step at all. -/
def Obligations.FaultRegistersHold : Prop :=
  ∀ s t : State, Inv s.blk → step s = .next t →
    ((∃ rest, s.port = .powerOnReset :: rest) ∨
      (s.blk.faultCause = 0 ∧
        (t.blk.life = .faulted ∨
          (t.blk.faultCause = s.blk.faultCause ∧ t.blk.faultOpc = s.blk.faultOpc ∧
            t.blk.faultInfo = s.blk.faultInfo))))

/-! ## Whole-machine rules -/

/-- R16 and R17: the Configuration and the payload type never change while an instance lives. -/
def Obligations.ConfigurationIsImmutable : Prop :=
  ∀ s t : State, step s = .next t → s.blk.life = .ready → t.blk.life = .ready →
    t.blk.cfgFd = s.blk.cfgFd ∧ t.blk.cfgPt = s.blk.cfgPt

/-- R15, R91, R95, R103 and R114: how LIFE moves. -/
def Obligations.LifeMovesAsStated : Prop :=
  ∀ s t : State, step s = .next t → t.blk.life ≠ s.blk.life →
    ((∃ rest, s.port = .powerOnReset :: rest) ∧ t.blk.life = .unconstructed) ∨
    (∃ c rest, s.port = .command c :: rest ∧ s.blk.life ≠ .faulted ∧
      ((t.blk.life = .faulted ∧ t.resp = none ∧ t.blk.faultCause ≠ 0) ∨
       (∃ i, decode c = .ok i ∧ constructs i = true ∧ s.blk.life = .unconstructed ∧
          t.blk.life = .ready ∧ t.resp = some (.ok .plain)) ∨
       (decode c = .ok .destroy ∧ s.blk.life = .ready ∧ t.blk.life = .unconstructed ∧
          t.resp = some (.ok .plain))))

/-- R32: no command but SUBMIT writes a buffer element. That what a transition leaves unspecified
(R29), the contents of the buffer and TS0, keeps its old value is the model's choice (log 11). -/
def Obligations.OnlySubmitWritesBuffer : Prop :=
  ∀ (i : Instr) (s t : State), exec i s = .next t →
    (∀ ts len samples, i ≠ .submit ts len samples) →
    (∀ a, t.blk.buf.read a = s.blk.buf.read a) ∧ t.blk.ts0 = s.blk.ts0

/-- R13 (the column 'written by') and R25: the Codec Core's state changes only where a packet is
emitted and at RESET, construction and DESTROY; the counter only at SUBMIT, RESET and construction. That
DESTROY keeps COUNTER and that a SUBMIT that faults keeps CS, where R95 and R103 leave them
unspecified, is the model's choice (log 11). -/
def Obligations.CodecStateOwners : Prop :=
  ∀ (i : Instr) (s t : State), exec i s = .next t →
    (t.blk.cs ≠ s.blk.cs →
      (∃ p, t.resp = some (.packet p)) ∨ i = .reset ∨ i = .destroy ∨
        (constructs i = true ∧ t.resp = some (.ok .plain))) ∧
    (t.blk.counter ≠ s.blk.counter →
      (∃ ts len samples, i = .submit ts len samples) ∨ i = .reset ∨
        (constructs i = true ∧ t.resp = some (.ok .plain)))

/-- R29 and I11: no rule reads an unspecified value. Two states that agree on everything the spec lets
a rule read have the same outcome, response and readable state after a step, whatever the unspecified
registers and buffer elements hold. -/
def Obligations.UnspecifiedValuesNeverRead : Prop :=
  ∀ s t : State, SameReadable s.blk t.blk → s.port = t.port → s.resp = t.resp →
    sameOutcome (step s) (step t)

/-! ## Laws over sequences of commands -/

/-- R76: the output count law. -/
def Obligations.SubmitCountLaw : Prop :=
  ∀ (fs : List SubFrame) (s t : State) (rs : List Response), Inv s.blk →
    s.blk.packetState = some .empty → wholeSubFrames fs →
    performAll (submits fs) s = some (rs, t) →
    rs.length = fs.length ∧
    rs.countP isPacket = fs.length / target s.blk.cfgFd ∧
    (∀ k r, rs[k]? = some r → (isPacket r = true ↔ (k + 1) % target s.blk.cfgFd = 0)) ∧
    t.blk.counter.toNat = fs.length % target s.blk.cfgFd ∧
    t.blk.cfgFd = s.blk.cfgFd ∧
    ∀ p, .packet p ∈ rs → p.bytes.length = Config.bPkt s.blk.cfgFd.toNat

/-- R77: the packet content law. A whole group of sub-frames from EMPTY gives the Codec Core exactly
their samples in order, and its answer alone decides the packet; the packet carries the timestamp of
the group's first sub-frame. -/
def Obligations.PacketContentLaw : Prop :=
  ∀ (f : SubFrame) (fs : List SubFrame) (s : State) (c : Config.CodecState), Inv s.blk →
    s.blk.packetState = some .empty → s.blk.cs = some c → wholeSubFrames (f :: fs) →
    (f :: fs).length = target s.blk.cfgFd →
    match Config.codecEncode c ((f :: fs).flatMap (fun g => g.2)) with
    | .fail => performAll (submits (f :: fs)) s = none
    | .ok c' bytes speech =>
      if bytes.length = Config.bPkt s.blk.cfgFd.toNat then
        ∃ t, performAll (submits (f :: fs)) s =
            some (List.replicate fs.length .noPacket ++
              [.packet ⟨bytes, BitVec.ofNat 16 (Config.bPkt s.blk.cfgFd.toNat), f.1, s.blk.cfgPt,
                speechCode speech⟩], t) ∧
          t.blk.packetState = some .empty ∧ t.blk.cs = some c'
      else performAll (submits (f :: fs)) s = none

/-- R79 and R72: after a RESET at any buffering depth, every later packet carries the timestamp of the
first sub-frame of its own group, counted from the RESET; and whatever commands follow the RESET, no
later packet carries a timestamp that was not supplied after it. -/
def Obligations.ResetLaw : Prop :=
  (∀ (fs : List SubFrame) (s t : State) (rs : List Response), Inv s.blk → s.blk.life = .ready →
    wholeSubFrames fs → performAll (.reset :: submits fs) s = some (rs, t) →
    ∃ rs', rs = .ok .plain :: rs' ∧
      ∀ k p, rs'[k]? = some (.packet p) →
        ∃ f, fs[k + 1 - target s.blk.cfgFd]? = some f ∧ p.ts = f.1) ∧
  ∀ (is : List Instr) (s t : State) (rs : List Response), s.blk.life = .ready →
    performAll (.reset :: is) s = some (rs, t) →
    ∀ p, .packet p ∈ rs → ∃ ts len samples, .submit ts len samples ∈ is ∧ p.ts = ts

/-- R30 d and R19: while sub-frames are buffered, TS0 is the timestamp of the earliest SUBMIT since the
last packet. -/
def Obligations.FirstTimestampIsHeld : Prop :=
  ∀ (fs : List SubFrame) (s t : State) (rs : List Response), Inv s.blk →
    s.blk.packetState = some .empty → wholeSubFrames fs →
    performAll (submits fs) s = some (rs, t) → t.blk.ts0Valid = true →
    ∃ f, fs[fs.length - fs.length % target s.blk.cfgFd]? = some f ∧ t.blk.ts0 = f.1

/-- R124: a run ends badly as soon as one of its commands faults, whatever follows. -/
def Obligations.RunEndsWellFromStart : Prop :=
  ∀ (cs ds : List Command), cs ≠ [] → endsWell (cs ++ ds) → endsWell cs

/-- R110: blocks share nothing. In a system of blocks, a step of block `k` is exactly that block's own
step; every other block stays as it was, and so does its next step; the steps of two blocks may be taken
in either order; every block's invariants are kept; and a command issued to block `k` completes whatever
state the other blocks are in, FAULTED among them. That a system is a list of states is the model's
choice (log 16). -/
def Obligations.BlocksAreIndependent : Prop :=
  ∀ (k : Nat) (bs : List State) (s : State), bs[k]? = some s →
    (∀ t, step s = .next t → stepBlock k bs = some (bs.set k t)) ∧
    (∀ cs, stepBlock k bs = some cs →
      (∃ t, step s = .next t ∧ cs[k]? = some t) ∧ cs.length = bs.length ∧
      (∀ j, j ≠ k → cs[j]? = bs[j]? ∧
        (stepBlock j cs).map (fun ds => ds[j]?) = (stepBlock j bs).map (fun ds => ds[j]?)) ∧
      ((∀ b ∈ bs, Inv b.blk) → ∀ b ∈ cs, Inv b.blk)) ∧
    (∀ j, j ≠ k → (stepBlock j bs).bind (stepBlock k) = (stepBlock k bs).bind (stepBlock j)) ∧
    (∀ c rest, Inv s.blk → s.blk.life ≠ .faulted → s.port = .command c :: rest →
      c.bundle.samples.length = c.bundle.len.toNat → c.bundle.fmt.name.length ≤ 255 →
      ∃ cs t, stepBlock k bs = some cs ∧ cs[k]? = some t ∧ t.port = rest ∧
        (t.resp = none ↔ t.blk.life = .faulted))
end

