-- ==== Sys2Proof/Laws/Decode.lean ====
section
/-! SUPPORT. The fields of an encoded command word, and what a decoded command tells. -/

namespace Sys2Proof

/-- The reserved field of a word made from an opcode is zero. -/
theorem rsvField_zero_append (o : BitVec 4) : rsvField (0x0#4 ++ o) = 0#4 := by
  revert o; decide

/-- The opcode field of a word made from an opcode is that opcode. -/
theorem opcField_zero_append (o : BitVec 4) : opcField (0x0#4 ++ o) = o := by
  revert o; decide

@[simp] theorem Instr.rsvField_word (i : Instr) : rsvField i.word = 0#4 := rsvField_zero_append _

@[simp] theorem Instr.opcField_word (i : Instr) : opcField i.word = i.opc := opcField_zero_append _

/-! ## The command words (30_encoding.md R46) -/

@[simp] theorem word_constructCfg (pt : Byte) (fd : Word16) : Instr.word (.constructCfg pt fd) = 0x01 := by
  show (0x0#4 ++ 0x1#4 : BitVec 8) = 0x01#8
  decide

@[simp] theorem word_constructLegacy (pt : Byte) (rate : Word32) (ch : Byte) (fd : Word16) : Instr.word (.constructLegacy pt rate ch fd) = 0x02 := by
  show (0x0#4 ++ 0x2#4 : BitVec 8) = 0x02#8
  decide

@[simp] theorem word_constructFmt (pt : Byte) (fmt : FormatDescriptor) : Instr.word (.constructFmt pt fmt) = 0x03 := by
  show (0x0#4 ++ 0x3#4 : BitVec 8) = 0x03#8
  decide

@[simp] theorem word_destroy : Instr.word (.destroy) = 0x04 := by
  show (0x0#4 ++ 0x4#4 : BitVec 8) = 0x04#8
  decide

@[simp] theorem word_submit (ts : Word32) (len : Word16) (samples : List Sample) : Instr.word (.submit ts len samples) = 0x05 := by
  show (0x0#4 ++ 0x5#4 : BitVec 8) = 0x05#8
  decide

@[simp] theorem word_reset : Instr.word (.reset) = 0x06 := by
  show (0x0#4 ++ 0x6#4 : BitVec 8) = 0x06#8
  decide

@[simp] theorem word_qRate : Instr.word (.qRate) = 0x07 := by
  show (0x0#4 ++ 0x7#4 : BitVec 8) = 0x07#8
  decide

@[simp] theorem word_qChannels : Instr.word (.qChannels) = 0x08 := by
  show (0x0#4 ++ 0x8#4 : BitVec 8) = 0x08#8
  decide

@[simp] theorem word_qNext : Instr.word (.qNext) = 0x09 := by
  show (0x0#4 ++ 0x9#4 : BitVec 8) = 0x09#8
  decide

@[simp] theorem word_qMax : Instr.word (.qMax) = 0x0A := by
  show (0x0#4 ++ 0xA#4 : BitVec 8) = 0x0A#8
  decide

@[simp] theorem word_qBitrate : Instr.word (.qBitrate) = 0x0B := by
  show (0x0#4 ++ 0xB#4 : BitVec 8) = 0x0B#8
  decide

@[simp] theorem word_qName : Instr.word (.qName) = 0x0C := by
  show (0x0#4 ++ 0xC#4 : BitVec 8) = 0x0C#8
  decide

@[simp] theorem word_resolve (fmt : FormatDescriptor) : Instr.word (.resolve fmt) = 0x0D := by
  show (0x0#4 ++ 0xD#4 : BitVec 8) = 0x0D#8
  decide

@[simp] theorem word_capability (fmt : FormatDescriptor) : Instr.word (.capability fmt) = 0x0E := by
  show (0x0#4 ++ 0xE#4 : BitVec 8) = 0x0E#8
  decide

/-- Every command's opcode lies between 1 and 14. -/
theorem Instr.opc_legal (i : Instr) : i.opc ≠ 0x0#4 ∧ i.opc ≠ 0xF#4 := by
  cases i <;> simp [Instr.opc]

/-- A command's word is never illegal. -/
theorem Instr.word_legal (i : Instr) : illegalWord i.word = false := by
  simp [illegalWord, i.opc_legal.1, i.opc_legal.2]

/-- The sixteen opcodes. -/
theorem opc_cases (o : BitVec 4) :
    o = 0x0#4 ∨ o = 0x1#4 ∨ o = 0x2#4 ∨ o = 0x3#4 ∨ o = 0x4#4 ∨ o = 0x5#4 ∨ o = 0x6#4 ∨ o = 0x7#4 ∨
    o = 0x8#4 ∨ o = 0x9#4 ∨ o = 0xA#4 ∨ o = 0xB#4 ∨ o = 0xC#4 ∨ o = 0xD#4 ∨ o = 0xE#4 ∨ o = 0xF#4 := by
  revert o; decide

@[simp] theorem encode_word (i : Instr) : (encode i).word = i.word := rfl

@[simp] theorem encode_bundle (i : Instr) : (encode i).bundle = i.bundle := rfl

/-- A command word is its two fields. -/
theorem word_of_fields (w : Byte) : rsvField w ++ opcField w = w := by
  simp only [rsvField, opcField]
  apply BitVec.eq_of_getLsbD_eq
  intro k hk
  simp only [BitVec.getLsbD_append, BitVec.getLsbD_extractLsb']
  by_cases h : k < 4
  · simp [h]
  · have h2 : k - 4 < 4 := by omega
    simp [h, h2, show 4 + (k - 4) = k by omega]

/-- A command that operand assembly gives is well-formed and carries the opcode it was assembled for. -/
theorem assemble_ok {opc : BitVec 4} {b : Bundle} {i : Instr} (h : assemble opc b = .ok i) :
    WellFormed i = true ∧ i.opc = opc := by
  have key : ∀ k : Nat, opc.toNat = k → k < 16 → opc = BitVec.ofNat 4 k := by
    intro k hk hlt
    apply BitVec.eq_of_toNat_eq
    simp [hk, Nat.mod_eq_of_lt hlt]
  unfold assemble at h
  split at h
  all_goals first
    | (cases h; rename_i hk; exact ⟨rfl, (key _ hk (by decide)).symm⟩)
    | (split at h
       · rename_i hk hw; cases h; exact ⟨hw, (key _ hk (by decide)).symm⟩
       · cases h)
    | cases h

/-- A word whose reserved bits are zero decodes to what operand assembly gives for its opcode. -/
theorem decode_of_rsvField {w : Byte} {b : Bundle} (h : rsvField w = 0#4) :
    decode ⟨w, b⟩ = assemble (opcField w) b := by
  simp [decode, h]

/-- A decoded command is well-formed and its command word is the one it was decoded from. -/
theorem decode_ok {c : Command} {i : Instr} (h : decode c = .ok i) :
    WellFormed i = true ∧ i.word = c.word ∧ assemble i.opc c.bundle = .ok i := by
  unfold decode at h
  split at h
  · cases h
  · rename_i hr
    obtain ⟨hw, ho⟩ := assemble_ok h
    refine ⟨hw, ?_, by rw [ho]; exact h⟩
    have hr' : rsvField c.word = 0#4 := by simpa using hr
    rw [← word_of_fields c.word, hr', ← ho]
    rfl

/-- Operand assembly rejects the opcode itself exactly when it is 0 or 15. -/
theorem assemble_error {o : BitVec 4} {b : Bundle} {e : DecodeError} (h : assemble o b = .error e) :
    e.illegalWord = (o == 0x0#4 || o == 0xF#4) := by
  rcases opc_cases o with rfl | rfl | rfl | rfl | rfl | rfl | rfl | rfl | rfl | rfl | rfl | rfl | rfl |
    rfl | rfl | rfl <;> simp only [assemble, BitVec.toNat_ofNat] at h <;>
    first
      | (cases h; done)
      | (cases h; rfl)
      | (split at h <;> cases h; rfl)

/-- The decoder rejects the word itself exactly when it spells no command. -/
theorem decode_error_illegal {c : Command} {e : DecodeError} (h : decode c = .error e) :
    e.illegalWord = illegalWord c.word := by
  unfold decode at h
  split at h
  · rename_i hr
    cases h
    simp [DecodeError.illegalWord, illegalWord, hr]
  · rename_i hr
    rw [assemble_error h]
    simp [illegalWord, show rsvField c.word = 0#4 by simpa using hr]

/-- A word that spells no command is never decoded. -/
theorem decode_illegal {c : Command} (h : illegalWord c.word = true) :
    ∃ e, decode c = .error e ∧ e.illegalWord = true := by
  cases hd : decode c with
  | error e => exact ⟨e, rfl, by rw [decode_error_illegal hd, h]⟩
  | ok i =>
    obtain ⟨_, hw, _⟩ := decode_ok hd
    rw [← hw, i.word_legal] at h
    cases h

end Sys2Proof
end

