-- ==== Sys2Proof/Laws/Memory.lean ====
section
/-! SUPPORT. The laws of the Sample Buffer: a read after a write, and the canonical form. -/

namespace Sys2Proof.Machine

open Sys2Proof

/-! ## Read after write -/

@[simp] theorem Buf.read_nil (a : Nat) : Buf.read [] a = none := rfl

/-- A read after a write of one element. -/
theorem Buf.read_write (m : Buf) (a : Nat) (v : Sample) (b : Nat) :
    (m.write a v).read b = if b = a then some v else m.read b := by
  induction m with
  | nil => simp [Buf.write, Buf.read]
  | cons c m ih =>
    obtain ⟨k, w⟩ := c
    simp only [Buf.write]
    split
    · simp only [Buf.read]
    · split
      · subst_vars
        simp only [Buf.read]
        split <;> rfl
      · simp only [Buf.read, ih]
        split_ifs <;> first | rfl | omega

/-- A read outside a written range gives what it gave before. -/
theorem read_memWrite_outside (vs : List Sample) (m : Buf) (a b : Nat)
    (h : b < a ∨ a + vs.length ≤ b) : (memWrite m a vs).read b = m.read b := by
  induction vs generalizing m a with
  | nil => rfl
  | cons v vs ih =>
    simp only [List.length_cons] at h
    rw [memWrite, ih _ _ (by omega), Buf.read_write, if_neg (by omega)]

/-- A read inside a written range gives the sample written there. -/
theorem read_memWrite_inside (vs : List Sample) (m : Buf) (a k : Nat) (h : k < vs.length) :
    (memWrite m a vs).read (a + k) = vs[k]? := by
  induction vs generalizing m a k with
  | nil => simp at h
  | cons v vs ih =>
    rw [memWrite]
    cases k with
    | zero => rw [read_memWrite_outside _ _ _ _ (by omega), Buf.read_write]; simp
    | succ k =>
      have := ih (m.write a v) (a + 1) k (by simpa using h)
      rw [show a + (k + 1) = a + 1 + k by omega, this]
      simp

/-! ## Reading a range -/

/-- A range reads as the list `vs` exactly when each of its elements does. -/
theorem memRead_eq_some_iff (m : Buf) (a n : Nat) (vs : List Sample) :
    memRead m a n = some vs ↔ vs.length = n ∧ ∀ k, k < n → m.read (a + k) = vs[k]? := by
  induction n generalizing a vs with
  | zero => cases vs <;> simp [memRead]
  | succ n ih =>
    simp only [memRead]
    constructor
    · intro h
      split at h
      · cases h
      · rename_i v hv
        split at h
        · cases h
        · rename_i ws hws
          cases h
          obtain ⟨hl, hk⟩ := (ih _ _).1 hws
          refine ⟨by simp [hl], fun k hkn => ?_⟩
          cases k with
          | zero => simpa using hv
          | succ k =>
            rw [show a + (k + 1) = a + 1 + k by omega, hk k (by omega)]
            simp
    · rintro ⟨hl, hk⟩
      cases vs with
      | nil => simp at hl
      | cons v ws =>
        have h0 := hk 0 (by omega)
        simp only [Nat.add_zero, List.getElem?_cons_zero] at h0
        have hws : memRead m (a + 1) n = some ws := by
          refine (ih _ _).2 ⟨by simpa using hl, fun k hkn => ?_⟩
          have := hk (k + 1) (by omega)
          rw [show a + (k + 1) = a + 1 + k by omega] at this
          simpa using this
        rw [h0, hws]

/-- A range reads exactly when each of its elements has been written. -/
theorem memRead_isSome_iff (m : Buf) (a n : Nat) :
    (memRead m a n).isSome = true ↔ ∀ k, k < n → (m.read (a + k)).isSome = true := by
  induction n generalizing a with
  | zero => simp [memRead]
  | succ n ih =>
    have ih' := ih (a + 1)
    simp only [memRead]
    constructor
    · intro h k hk
      cases hv : m.read a with
      | none => simp [hv] at h
      | some v =>
        cases hws : memRead m (a + 1) n with
        | none => simp [hv, hws] at h
        | some ws =>
          cases k with
          | zero => simp [hv]
          | succ k =>
            have := (ih'.1 (by simp [hws])) k (by omega)
            rwa [show a + (k + 1) = a + 1 + k by omega]
    · intro h
      have h0 := h 0 (by omega)
      obtain ⟨v, hv⟩ := Option.isSome_iff_exists.1 h0
      have h1 : (memRead m (a + 1) n).isSome = true := by
        refine ih'.2 fun k hk => ?_
        have := h (k + 1) (by omega)
        rwa [show a + (k + 1) = a + 1 + k by omega] at this
      obtain ⟨ws, hws⟩ := Option.isSome_iff_exists.1 h1
      simp only [Nat.add_zero] at hv
      simp [hv, hws]

/-- Two buffers that agree on a range read alike there. -/
theorem memRead_congr (m m' : Buf) (a n : Nat)
    (h : ∀ k, k < n → m.read (a + k) = m'.read (a + k)) : memRead m a n = memRead m' a n := by
  induction n generalizing a with
  | zero => rfl
  | succ n ih =>
    have h0 := h 0 (by omega)
    simp only [Nat.add_zero] at h0
    have h1 : memRead m (a + 1) n = memRead m' (a + 1) n := by
      refine ih (a + 1) fun k hk => ?_
      have := h (k + 1) (by omega)
      rwa [show a + (k + 1) = a + 1 + k by omega] at this
    simp only [memRead, h0, h1]

/-- Two ranges that follow each other read as the concatenation. -/
theorem memRead_append (m : Buf) (a n k : Nat) (vs ws : List Sample)
    (h1 : memRead m a n = some vs) (h2 : memRead m (a + n) k = some ws) :
    memRead m a (n + k) = some (vs ++ ws) := by
  rw [memRead_eq_some_iff] at *
  obtain ⟨l1, r1⟩ := h1
  obtain ⟨l2, r2⟩ := h2
  refine ⟨by simp [l1, l2], fun j hj => ?_⟩
  by_cases hjn : j < n
  · rw [r1 j hjn, List.getElem?_append_left (by omega)]
  · have := r2 (j - n) (by omega)
    rw [show a + n + (j - n) = a + j by omega] at this
    rw [this, List.getElem?_append_right (by omega), l1]

/-- The written range reads back as what was written. -/
theorem memRead_memWrite (m : Buf) (a : Nat) (vs : List Sample) :
    memRead (memWrite m a vs) a vs.length = some vs :=
  (memRead_eq_some_iff _ _ _ _).2 ⟨rfl, fun k hk => read_memWrite_inside vs m a k hk⟩

/-! ## The canonical form -/

/-- A lower bound of the indices may be lowered. -/
theorem Buf.risingFrom_mono {lo lo' : Nat} (h : lo' ≤ lo) :
    ∀ {m : Buf}, m.risingFrom lo = true → m.risingFrom lo' = true
  | [], _ => rfl
  | (a, _) :: _, hm => by
    simp only [Buf.risingFrom, Bool.and_eq_true, decide_eq_true_eq] at hm ⊢
    exact ⟨by omega, hm.2⟩

/-- A write keeps the indices strictly rising. -/
theorem Buf.risingFrom_write (m : Buf) (lo a : Nat) (v : Sample) (hlo : lo ≤ a)
    (hm : m.risingFrom lo = true) : (m.write a v).risingFrom lo = true := by
  induction m generalizing lo with
  | nil => simp [Buf.write, Buf.risingFrom, hlo]
  | cons c m ih =>
    obtain ⟨b, w⟩ := c
    simp only [Buf.risingFrom, Bool.and_eq_true, decide_eq_true_eq] at hm
    simp only [Buf.write]
    split
    · simp only [Buf.risingFrom, Bool.and_eq_true, decide_eq_true_eq]
      exact ⟨hlo, by omega, hm.2⟩
    · split
      · subst_vars
        simp only [Buf.risingFrom, Bool.and_eq_true, decide_eq_true_eq]
        exact ⟨hlo, hm.2⟩
      · simp only [Buf.risingFrom, Bool.and_eq_true, decide_eq_true_eq]
        exact ⟨hm.1, ih (b + 1) (by omega) hm.2⟩

/-- The elements after a write are the old ones and the new one. -/
theorem Buf.mem_write (m : Buf) (a : Nat) (v : Sample) (c : SampleCell) (h : c ∈ m.write a v) :
    c = (a, v) ∨ c ∈ m := by
  induction m with
  | nil => simpa [Buf.write] using h
  | cons d m ih =>
    obtain ⟨b, w⟩ := d
    simp only [Buf.write] at h
    split at h
    · simpa using h
    · split at h
      · rcases List.mem_cons.1 h with h | h
        · exact .inl h
        · exact .inr (List.mem_cons_of_mem _ h)
      · rcases List.mem_cons.1 h with h | h
        · exact .inr (by simp [h])
        · rcases ih h with h | h
          · exact .inl h
          · exact .inr (List.mem_cons_of_mem _ h)

/-- A write below a bound keeps every index below it. -/
theorem memWrite_below (vs : List Sample) (m : Buf) (a bound : Nat) (ha : a + vs.length ≤ bound)
    (hm : ∀ c ∈ m, c.1 < bound) : ∀ c ∈ memWrite m a vs, c.1 < bound := by
  induction vs generalizing m a with
  | nil => exact hm
  | cons v vs ih =>
    simp only [List.length_cons] at ha
    refine ih _ _ (by omega) fun c hc => ?_
    rcases Buf.mem_write m a v c hc with rfl | hc
    · simp only; omega
    · exact hm c hc

/-- A write of a range keeps the indices strictly rising. -/
theorem risingFrom_memWrite (vs : List Sample) (m : Buf) (lo a : Nat) (h : lo ≤ a)
    (hm : m.risingFrom lo = true) : (memWrite m a vs).risingFrom lo = true := by
  induction vs generalizing m a with
  | nil => exact hm
  | cons v vs ih => exact ih _ _ (by omega) (Buf.risingFrom_write m lo a v h hm)

/-- Every write inside the buffer keeps the canonical form. -/
theorem memWrite_wf (vs : List Sample) (m : Buf) (a : Nat) (ha : a + vs.length ≤ Config.bufCap)
    (hm : m.wf = true) : (memWrite m a vs).wf = true := by
  simp only [Buf.wf, Bool.and_eq_true, List.all_eq_true, decide_eq_true_eq] at hm ⊢
  exact ⟨risingFrom_memWrite vs m 0 a (by omega) hm.1, memWrite_below vs m a _ ha hm.2⟩

/-- The buffer after power-on reset has the canonical form. -/
theorem powerOn_wf : Block.powerOn.buf.wf = true := rfl

/-- An element of a buffer in canonical form reads as it is listed. -/
theorem Buf.read_of_mem (m : Buf) (lo : Nat) (hm : m.risingFrom lo = true) (a : Nat) (v : Sample)
    (h : (a, v) ∈ m) : m.read a = some v := by
  induction m generalizing lo with
  | nil => simp at h
  | cons c m ih =>
    obtain ⟨b, w⟩ := c
    simp only [Buf.risingFrom, Bool.and_eq_true, decide_eq_true_eq] at hm
    have key : ∀ (l : Buf) (lo : Nat), l.risingFrom lo = true → ∀ c ∈ l, lo ≤ c.1 := by
      intro l
      induction l with
      | nil => simp
      | cons d l ihl =>
        intro lo hl c hc
        simp only [Buf.risingFrom, Bool.and_eq_true, decide_eq_true_eq] at hl
        rcases List.mem_cons.1 hc with rfl | hc
        · exact hl.1
        · have := ihl _ hl.2 c hc
          omega
    simp only [Buf.read]
    rcases List.mem_cons.1 h with h | h
    · cases h; simp
    · have := key m (b + 1) hm.2 _ h
      rw [if_neg (by simp only at this; omega)]
      exact ih (b + 1) hm.2 h

end Sys2Proof.Machine
end

