-- ==== Sys2Proof/Laws/State.lean ====
section
/-! SUPPORT. One lemma per field per update of State, each true by unfolding, so that no later proof
unfolds a record update. -/

namespace Sys2Proof.Machine

open Sys2Proof

@[simp] theorem State.setBlk_blk (s : State) (b : Block) :
    (s.setBlk b).blk = b := rfl

@[simp] theorem State.setBlk_port (s : State) (b : Block) :
    (s.setBlk b).port = s.port := rfl

@[simp] theorem State.setBlk_resp (s : State) (b : Block) :
    (s.setBlk b).resp = s.resp := rfl

@[simp] theorem State.setResp_blk (s : State) (r : Option Response) :
    (s.setResp r).blk = s.blk := rfl

@[simp] theorem State.setResp_port (s : State) (r : Option Response) :
    (s.setResp r).port = s.port := rfl

@[simp] theorem State.setResp_resp (s : State) (r : Option Response) :
    (s.setResp r).resp = r := rfl

@[simp] theorem State.setPort_blk (s : State) (es : List HostEvent) :
    (s.setPort es).blk = s.blk := rfl

@[simp] theorem State.setPort_port (s : State) (es : List HostEvent) :
    (s.setPort es).port = es := rfl

@[simp] theorem State.setPort_resp (s : State) (es : List HostEvent) :
    (s.setPort es).resp = s.resp := rfl

/-! ## enterFault -/

@[simp] theorem enterFault_life (c : Cause) (info : Word16) (cw : Byte) (s : State) :
    (enterFault c info cw s).blk.life = .faulted := rfl

@[simp] theorem enterFault_cfgFd (c : Cause) (info : Word16) (cw : Byte) (s : State) :
    (enterFault c info cw s).blk.cfgFd = s.blk.cfgFd := rfl

@[simp] theorem enterFault_cfgPt (c : Cause) (info : Word16) (cw : Byte) (s : State) :
    (enterFault c info cw s).blk.cfgPt = s.blk.cfgPt := rfl

@[simp] theorem enterFault_counter (c : Cause) (info : Word16) (cw : Byte) (s : State) :
    (enterFault c info cw s).blk.counter = s.blk.counter := rfl

@[simp] theorem enterFault_ts0 (c : Cause) (info : Word16) (cw : Byte) (s : State) :
    (enterFault c info cw s).blk.ts0 = s.blk.ts0 := rfl

@[simp] theorem enterFault_buf (c : Cause) (info : Word16) (cw : Byte) (s : State) :
    (enterFault c info cw s).blk.buf = s.blk.buf := rfl

@[simp] theorem enterFault_cs (c : Cause) (info : Word16) (cw : Byte) (s : State) :
    (enterFault c info cw s).blk.cs = s.blk.cs := rfl

@[simp] theorem enterFault_faultCause (c : Cause) (info : Word16) (cw : Byte) (s : State) :
    (enterFault c info cw s).blk.faultCause = c.code := rfl

@[simp] theorem enterFault_faultOpc (c : Cause) (info : Word16) (cw : Byte) (s : State) :
    (enterFault c info cw s).blk.faultOpc = opcField cw := rfl

@[simp] theorem enterFault_faultInfo (c : Cause) (info : Word16) (cw : Byte) (s : State) :
    (enterFault c info cw s).blk.faultInfo = info := rfl

@[simp] theorem enterFault_port (c : Cause) (info : Word16) (cw : Byte) (s : State) :
    (enterFault c info cw s).port = s.port := rfl

@[simp] theorem enterFault_resp (c : Cause) (info : Word16) (cw : Byte) (s : State) :
    (enterFault c info cw s).resp = none := rfl

/-! ## construct -/

@[simp] theorem construct_life (fd : Word16) (pt : Byte) (s : State) :
    (construct fd pt s).blk.life = .ready := rfl

@[simp] theorem construct_cfgFd (fd : Word16) (pt : Byte) (s : State) :
    (construct fd pt s).blk.cfgFd = fd := rfl

@[simp] theorem construct_cfgPt (fd : Word16) (pt : Byte) (s : State) :
    (construct fd pt s).blk.cfgPt = pt := rfl

@[simp] theorem construct_counter (fd : Word16) (pt : Byte) (s : State) :
    (construct fd pt s).blk.counter = 0 := rfl

@[simp] theorem construct_ts0 (fd : Word16) (pt : Byte) (s : State) :
    (construct fd pt s).blk.ts0 = s.blk.ts0 := rfl

@[simp] theorem construct_buf (fd : Word16) (pt : Byte) (s : State) :
    (construct fd pt s).blk.buf = s.blk.buf := rfl

@[simp] theorem construct_cs (fd : Word16) (pt : Byte) (s : State) :
    (construct fd pt s).blk.cs = some (Config.codecInit (configurationOf fd)) := rfl

@[simp] theorem construct_faultCause (fd : Word16) (pt : Byte) (s : State) :
    (construct fd pt s).blk.faultCause = s.blk.faultCause := rfl

@[simp] theorem construct_faultOpc (fd : Word16) (pt : Byte) (s : State) :
    (construct fd pt s).blk.faultOpc = s.blk.faultOpc := rfl

@[simp] theorem construct_faultInfo (fd : Word16) (pt : Byte) (s : State) :
    (construct fd pt s).blk.faultInfo = s.blk.faultInfo := rfl

@[simp] theorem construct_port (fd : Word16) (pt : Byte) (s : State) :
    (construct fd pt s).port = s.port := rfl

@[simp] theorem construct_resp (fd : Word16) (pt : Byte) (s : State) :
    (construct fd pt s).resp = s.resp := rfl

/-! ## applyPowerOn -/

@[simp] theorem applyPowerOn_blk (s : State) :
    (applyPowerOn s).blk = Block.powerOn := rfl

@[simp] theorem applyPowerOn_port (s : State) :
    (applyPowerOn s).port = s.port := rfl

@[simp] theorem applyPowerOn_resp (s : State) :
    (applyPowerOn s).resp = none := rfl

/-! ## appendSubFrame -/

@[simp] theorem appendSubFrame_life (ts : Word32) (samples : List Sample) (b : Block) :
    (appendSubFrame ts samples b).life = b.life := rfl

@[simp] theorem appendSubFrame_cfgFd (ts : Word32) (samples : List Sample) (b : Block) :
    (appendSubFrame ts samples b).cfgFd = b.cfgFd := rfl

@[simp] theorem appendSubFrame_cfgPt (ts : Word32) (samples : List Sample) (b : Block) :
    (appendSubFrame ts samples b).cfgPt = b.cfgPt := rfl

@[simp] theorem appendSubFrame_counter (ts : Word32) (samples : List Sample) (b : Block) :
    (appendSubFrame ts samples b).counter = b.counter + 1 := rfl

@[simp] theorem appendSubFrame_ts0 (ts : Word32) (samples : List Sample) (b : Block) :
    (appendSubFrame ts samples b).ts0 = if b.counter = 0 then ts else b.ts0 := rfl

@[simp] theorem appendSubFrame_buf (ts : Word32) (samples : List Sample) (b : Block) :
    (appendSubFrame ts samples b).buf = memWrite b.buf b.occ samples := rfl

@[simp] theorem appendSubFrame_cs (ts : Word32) (samples : List Sample) (b : Block) :
    (appendSubFrame ts samples b).cs = b.cs := rfl

@[simp] theorem appendSubFrame_faultCause (ts : Word32) (samples : List Sample) (b : Block) :
    (appendSubFrame ts samples b).faultCause = b.faultCause := rfl

@[simp] theorem appendSubFrame_faultOpc (ts : Word32) (samples : List Sample) (b : Block) :
    (appendSubFrame ts samples b).faultOpc = b.faultOpc := rfl

@[simp] theorem appendSubFrame_faultInfo (ts : Word32) (samples : List Sample) (b : Block) :
    (appendSubFrame ts samples b).faultInfo = b.faultInfo := rfl

/-! ## endInstance -/

@[simp] theorem endInstance_life (b : Block) :
    (endInstance b).life = .unconstructed := rfl

@[simp] theorem endInstance_cfgFd (b : Block) :
    (endInstance b).cfgFd = b.cfgFd := rfl

@[simp] theorem endInstance_cfgPt (b : Block) :
    (endInstance b).cfgPt = b.cfgPt := rfl

@[simp] theorem endInstance_counter (b : Block) :
    (endInstance b).counter = b.counter := rfl

@[simp] theorem endInstance_ts0 (b : Block) :
    (endInstance b).ts0 = b.ts0 := rfl

@[simp] theorem endInstance_buf (b : Block) :
    (endInstance b).buf = b.buf := rfl

@[simp] theorem endInstance_cs (b : Block) :
    (endInstance b).cs = none := rfl

@[simp] theorem endInstance_faultCause (b : Block) :
    (endInstance b).faultCause = b.faultCause := rfl

@[simp] theorem endInstance_faultOpc (b : Block) :
    (endInstance b).faultOpc = b.faultOpc := rfl

@[simp] theorem endInstance_faultInfo (b : Block) :
    (endInstance b).faultInfo = b.faultInfo := rfl

/-! ## clearPacket -/

@[simp] theorem clearPacket_life (next : Config.CodecState) (b : Block) :
    (clearPacket next b).life = b.life := rfl

@[simp] theorem clearPacket_cfgFd (next : Config.CodecState) (b : Block) :
    (clearPacket next b).cfgFd = b.cfgFd := rfl

@[simp] theorem clearPacket_cfgPt (next : Config.CodecState) (b : Block) :
    (clearPacket next b).cfgPt = b.cfgPt := rfl

@[simp] theorem clearPacket_counter (next : Config.CodecState) (b : Block) :
    (clearPacket next b).counter = 0 := rfl

@[simp] theorem clearPacket_ts0 (next : Config.CodecState) (b : Block) :
    (clearPacket next b).ts0 = b.ts0 := rfl

@[simp] theorem clearPacket_buf (next : Config.CodecState) (b : Block) :
    (clearPacket next b).buf = b.buf := rfl

@[simp] theorem clearPacket_cs (next : Config.CodecState) (b : Block) :
    (clearPacket next b).cs = some next := rfl

@[simp] theorem clearPacket_faultCause (next : Config.CodecState) (b : Block) :
    (clearPacket next b).faultCause = b.faultCause := rfl

@[simp] theorem clearPacket_faultOpc (next : Config.CodecState) (b : Block) :
    (clearPacket next b).faultOpc = b.faultOpc := rfl

@[simp] theorem clearPacket_faultInfo (next : Config.CodecState) (b : Block) :
    (clearPacket next b).faultInfo = b.faultInfo := rfl

/-! ## resetPacketizer -/

@[simp] theorem resetPacketizer_life (b : Block) :
    (resetPacketizer b).life = b.life := rfl

@[simp] theorem resetPacketizer_cfgFd (b : Block) :
    (resetPacketizer b).cfgFd = b.cfgFd := rfl

@[simp] theorem resetPacketizer_cfgPt (b : Block) :
    (resetPacketizer b).cfgPt = b.cfgPt := rfl

@[simp] theorem resetPacketizer_counter (b : Block) :
    (resetPacketizer b).counter = 0 := rfl

@[simp] theorem resetPacketizer_ts0 (b : Block) :
    (resetPacketizer b).ts0 = b.ts0 := rfl

@[simp] theorem resetPacketizer_buf (b : Block) :
    (resetPacketizer b).buf = b.buf := rfl

@[simp] theorem resetPacketizer_cs (b : Block) :
    (resetPacketizer b).cs = b.cs.map Config.codecReset := rfl

@[simp] theorem resetPacketizer_faultCause (b : Block) :
    (resetPacketizer b).faultCause = b.faultCause := rfl

@[simp] theorem resetPacketizer_faultOpc (b : Block) :
    (resetPacketizer b).faultOpc = b.faultOpc := rfl

@[simp] theorem resetPacketizer_faultInfo (b : Block) :
    (resetPacketizer b).faultInfo = b.faultInfo := rfl

/-! ## State.reset -/

@[simp] theorem State.reset_blk :
    State.reset.blk = Block.powerOn := rfl

@[simp] theorem State.reset_port :
    State.reset.port = [] := rfl

@[simp] theorem State.reset_resp :
    State.reset.resp = none := rfl

@[simp] theorem Block.powerOn_life :
    Block.powerOn.life = .unconstructed := rfl

@[simp] theorem Block.powerOn_cfgFd :
    Block.powerOn.cfgFd = 0 := rfl

@[simp] theorem Block.powerOn_cfgPt :
    Block.powerOn.cfgPt = 0 := rfl

@[simp] theorem Block.powerOn_counter :
    Block.powerOn.counter = 0 := rfl

@[simp] theorem Block.powerOn_ts0 :
    Block.powerOn.ts0 = 0 := rfl

@[simp] theorem Block.powerOn_buf :
    Block.powerOn.buf = [] := rfl

@[simp] theorem Block.powerOn_cs :
    Block.powerOn.cs = none := rfl

@[simp] theorem Block.powerOn_faultCause :
    Block.powerOn.faultCause = 0 := rfl

@[simp] theorem Block.powerOn_faultOpc :
    Block.powerOn.faultOpc = 0 := rfl

@[simp] theorem Block.powerOn_faultInfo :
    Block.powerOn.faultInfo = 0 := rfl

end Sys2Proof.Machine
end

