-- ==== Sys2Proof/Laws/Operands.lean ====
section
/-! SUPPORT. What the derived constants, the resolver and the open parameters give. -/

namespace Sys2Proof.Machine

open Sys2Proof

/-! ## Open parameters -/

/-- `B_PKT(fd)` is at least 1 and fits `PKT_LEN`. -/
theorem bPkt_bounds (fd : Nat) : 1 ≤ Config.bPkt fd ∧ Config.bPkt fd < 65536 := by
  have := (Config.bPktLessOne fd).isLt
  simp only [Config.bPkt]
  omega

/-- `PKT_LEN` holds `B_PKT(fd)` without loss. -/
theorem requiredOutputSize_toNat (fd : Word16) :
    (BitVec.ofNat 16 (requiredOutputSize fd)).toNat = requiredOutputSize fd := by
  have := bPkt_bounds fd.toNat
  simp only [requiredOutputSize, BitVec.toNat_ofNat]
  omega

/-! ## Derived constants -/

@[simp] theorem target_20 : target 20#16 = 2 := by decide

@[simp] theorem target_30 : target 30#16 = 3 := by decide

@[simp] theorem pktSamples_20 : pktSamples 20#16 = 160 := by decide

@[simp] theorem pktSamples_30 : pktSamples 30#16 = 240 := by decide

/-- A packet's samples are its sub-frames' samples. -/
theorem pktSamples_eq (fd : Word16) : pktSamples fd = target fd * 80 := rfl

/-- The occupied length is 80 samples for each counted sub-frame. -/
theorem occ_eq (b : Block) : b.occ = b.counter.toNat * 80 := rfl

/-- The counter of a block holds at most 3. -/
theorem counter_le (b : Block) : b.counter.toNat ≤ 3 := by
  have := b.counter.isLt
  omega

/-- A counter below a target of at most 3 counts up without wrapping. -/
theorem counter_succ {c : BitVec 2} (h : c.toNat < 3) : (c + 1).toNat = c.toNat + 1 := by
  have h1 : BitVec.toNat (1 : BitVec 2) = 1 := rfl
  rw [BitVec.toNat_add, h1]
  omega

/-- A block is EMPTY exactly when it is READY with nothing counted. -/
theorem packetState_empty_iff (b : Block) :
    b.packetState = some .empty ↔ b.life = .ready ∧ b.counter = 0 := by
  unfold Block.packetState
  have : b.counter.toNat = 0 ↔ b.counter = 0 := by
    constructor
    · intro h; exact BitVec.eq_of_toNat_eq (by simpa using h)
    · intro h; simp [h]
  split_ifs with h1 h2 <;> simp_all

/-! ## Configuration validity and the resolver -/

/-- Which configurations are valid (43_lifecycle.md R88). -/
theorem validConfig_iff (fd rate ch : Nat) :
    validConfig fd rate ch = true ↔ (fd = 20 ∨ fd = 30) ∧ rate = 8000 ∧ ch = 1 := by
  simp [validConfig, Config.fdSet, Config.sampleRate, Config.channels, and_assoc]

/-- A valid 16-bit frame duration is 20 or 30. -/
theorem validConfig_word {fd : Word16} {rate ch : Nat} (h : validConfig fd.toNat rate ch = true) :
    fd = 20 ∨ fd = 30 := by
  rcases ((validConfig_iff _ _ _).1 h).1 with h | h
  · exact .inl (BitVec.eq_of_toNat_eq (by simpa using h))
  · exact .inr (BitVec.eq_of_toNat_eq (by simpa using h))

/-- The resolver never answers a frame duration but 20 or 30 (40_format_resolver.md R63). -/
theorem resolve_cfg {f : FormatDescriptor} {fd : Word16} (h : resolve f = .cfg fd) :
    fd = 20 ∨ fd = 30 := by
  simp only [resolve, resolveFraming, Config.fdDefault] at h
  split_ifs at h <;> simp_all

/-- The resolver's checks may be made in the order in which R63 writes them. -/
theorem resolve_eq_spec_order (f : FormatDescriptor) :
    resolve f =
      if Config.nameAccept f.name = false then .unsupported
      else if f.rate.toNat ≠ 8000 then .unsupported
      else if f.ch.toNat ≠ 1 then .unsupported
      else resolveFraming f := by
  simp only [resolve, Config.sampleRate, Config.channels]
  by_cases h1 : f.rate.toNat = 8000 <;> by_cases h2 : f.ch.toNat = 1 <;>
    by_cases h3 : Config.nameAccept f.name = false <;> simp [h1, h2, h3]

end Sys2Proof.Machine
end

