-- ==== Sys2Proof/Laws/Ops.lean ====
section
/-! SUPPORT. For each shared operation, everything it can do. -/

namespace Sys2Proof.Machine

open Sys2Proof

/-! ## The checks on LIFE -/

theorem whenAlive_of_alive {s : State} {k : State → Result} (h : s.blk.life ≠ .faulted) :
    whenAlive s k = k s := by
  unfold whenAlive
  split <;> simp_all

theorem whenAlive_of_faulted {s : State} {k : State → Result} (h : s.blk.life = .faulted) :
    whenAlive s k = .fault .blockFaulted := by simp [whenAlive, h]

theorem whenReady_of_ready {cw : Byte} {s : State} {k : State → Result} (h : s.blk.life = .ready) :
    whenReady cw s k = k s := by simp [whenReady, h]

theorem whenReady_of_unconstructed {cw : Byte} {s : State} {k : State → Result}
    (h : s.blk.life = .unconstructed) :
    whenReady cw s k = .next (enterFault .noInstance (cw.setWidth 16) cw s) := by
  simp [whenReady, h, raise]

theorem whenReady_of_faulted {cw : Byte} {s : State} {k : State → Result}
    (h : s.blk.life = .faulted) : whenReady cw s k = .fault .blockFaulted := by
  simp [whenReady, h]

theorem whenUnconstructed_of_unconstructed {cw : Byte} {s : State} {k : State → Result}
    (h : s.blk.life = .unconstructed) : whenUnconstructed cw s k = k s := by
  simp [whenUnconstructed, h]

theorem whenUnconstructed_of_ready {cw : Byte} {s : State} {k : State → Result}
    (h : s.blk.life = .ready) :
    whenUnconstructed cw s k = .next (enterFault .alreadyConstructed (cw.setWidth 16) cw s) := by
  simp [whenUnconstructed, h, raise]

theorem whenUnconstructed_of_faulted {cw : Byte} {s : State} {k : State → Result}
    (h : s.blk.life = .faulted) : whenUnconstructed cw s k = .fault .blockFaulted := by
  simp [whenUnconstructed, h]

theorem whenAlive_next {s t : State} {k : State → Result} (h : whenAlive s k = .next t) :
    s.blk.life ≠ .faulted ∧ k s = .next t := by
  by_cases hl : s.blk.life = .faulted
  · rw [whenAlive_of_faulted hl] at h; cases h
  · exact ⟨hl, by rwa [whenAlive_of_alive hl] at h⟩

theorem whenReady_next {cw : Byte} {s t : State} {k : State → Result}
    (h : whenReady cw s k = .next t) :
    (s.blk.life = .ready ∧ k s = .next t) ∨
    (s.blk.life = .unconstructed ∧ t = enterFault .noInstance (cw.setWidth 16) cw s) := by
  cases hl : s.blk.life with
  | faulted => rw [whenReady_of_faulted hl] at h; cases h
  | ready => exact .inl ⟨rfl, by rwa [whenReady_of_ready hl] at h⟩
  | unconstructed => rw [whenReady_of_unconstructed hl] at h; cases h; exact .inr ⟨rfl, rfl⟩

theorem whenUnconstructed_next {cw : Byte} {s t : State} {k : State → Result}
    (h : whenUnconstructed cw s k = .next t) :
    (s.blk.life = .unconstructed ∧ k s = .next t) ∨
    (s.blk.life = .ready ∧ t = enterFault .alreadyConstructed (cw.setWidth 16) cw s) := by
  cases hl : s.blk.life with
  | faulted => rw [whenUnconstructed_of_faulted hl] at h; cases h
  | unconstructed => exact .inl ⟨rfl, by rwa [whenUnconstructed_of_unconstructed hl] at h⟩
  | ready => rw [whenUnconstructed_of_ready hl] at h; cases h; exact .inr ⟨rfl, rfl⟩

/-! ## Construction -/

theorem constructIf_next {v : Bool} {fd : Word16} {pt : Byte} {s t : State}
    (h : constructIf v fd pt s = .next t) :
    (v = true ∧ t = (construct fd pt s).setResp (some (.ok .plain))) ∨
    (v = false ∧ t = s.setResp (some .unsupported)) := by
  cases v
  · simp only [constructIf, respond, Bool.false_eq_true, if_false] at h
    cases h
    exact .inr ⟨rfl, rfl⟩
  · simp only [constructIf, respond, if_true] at h
    cases h
    exact .inl ⟨rfl, rfl⟩

/-! ## The completing SUBMIT -/

/-- What a SUBMIT that passed the length check can do, from the block `b` after its append. -/
inductive SubmitEffect (s : State) : State → Prop where
  /-- Below the target: buffering, no packet yet (41_packetizer.md R73). -/
  | buffered (h : s.blk.counter.toNat < target s.blk.cfgFd) :
      SubmitEffect s (s.setResp (some .noPacket))
  /-- The Codec Core fails (R70). -/
  | codecFails (frame : List Sample) (c : Config.CodecState)
      (hn : ¬ s.blk.counter.toNat < target s.blk.cfgFd)
      (hf : memRead s.blk.buf 0 (pktSamples s.blk.cfgFd) = some frame) (hc : s.blk.cs = some c)
      (he : Config.codecEncode c frame = .fail) :
      SubmitEffect s (enterFault .codec 0 0x05 s)
  /-- The Codec Core returns a wrong number of bytes (R69, R75). -/
  | wrongSize (frame : List Sample) (c c' : Config.CodecState) (bytes : List Byte)
      (speech : Config.Speech)
      (hn : ¬ s.blk.counter.toNat < target s.blk.cfgFd)
      (hf : memRead s.blk.buf 0 (pktSamples s.blk.cfgFd) = some frame) (hc : s.blk.cs = some c)
      (he : Config.codecEncode c frame = .ok c' bytes speech)
      (hl : bytes.length ≠ requiredOutputSize s.blk.cfgFd) :
      SubmitEffect s (enterFault .outputSize (BitVec.ofNat 16 bytes.length) 0x05 s)
  /-- A packet is emitted (R75). -/
  | emitted (frame : List Sample) (c c' : Config.CodecState) (bytes : List Byte)
      (speech : Config.Speech)
      (hn : ¬ s.blk.counter.toNat < target s.blk.cfgFd)
      (hf : memRead s.blk.buf 0 (pktSamples s.blk.cfgFd) = some frame) (hc : s.blk.cs = some c)
      (he : Config.codecEncode c frame = .ok c' bytes speech)
      (hl : bytes.length = requiredOutputSize s.blk.cfgFd) :
      SubmitEffect s
        ((s.setBlk (clearPacket c' s.blk)).setResp
          (some (.packet ⟨bytes, BitVec.ofNat 16 (requiredOutputSize s.blk.cfgFd), s.blk.ts0,
            s.blk.cfgPt, speechCode speech⟩)))

/-- A failing Codec Core is fatal. -/
theorem finishPacket_fail (s : State) :
    finishPacket .fail s = .next (enterFault .codec 0 0x05 s) := rfl

/-- A wrong number of bytes is fatal. -/
theorem finishPacket_wrongSize {c' : Config.CodecState} {bytes : List Byte} {speech : Config.Speech}
    {s : State} (h : bytes.length ≠ requiredOutputSize s.blk.cfgFd) :
    finishPacket (.ok c' bytes speech) s =
      .next (enterFault .outputSize (BitVec.ofNat 16 bytes.length) 0x05 s) := by
  simp only [finishPacket, if_pos h, raise]

/-- The required number of bytes makes a packet. -/
theorem finishPacket_emits {c' : Config.CodecState} {bytes : List Byte} {speech : Config.Speech}
    {s : State} (h : bytes.length = requiredOutputSize s.blk.cfgFd) :
    finishPacket (.ok c' bytes speech) s =
      .next ((s.setBlk (clearPacket c' s.blk)).setResp
        (some (.packet ⟨bytes, BitVec.ofNat 16 (requiredOutputSize s.blk.cfgFd), s.blk.ts0,
          s.blk.cfgPt, speechCode speech⟩))) := by
  simp only [finishPacket, ne_eq, h, not_true_eq_false, if_false]
  rfl

/-- Whatever the Codec Core answers, the completing SUBMIT goes on. -/
theorem finishPacket_completes (answer : Config.CodecResult) (s : State) :
    ∃ t, finishPacket answer s = .next t := by
  cases answer with
  | fail => exact ⟨_, finishPacket_fail s⟩
  | ok c' bytes speech =>
    by_cases h : bytes.length = requiredOutputSize s.blk.cfgFd
    · exact ⟨_, finishPacket_emits h⟩
    · exact ⟨_, finishPacket_wrongSize h⟩

/-- The packet read, and the one invocation of the Codec Core. -/
theorem encodePacket_eq {s : State} {frame : List Sample} {c : Config.CodecState}
    (hf : memRead s.blk.buf 0 (pktSamples s.blk.cfgFd) = some frame) (hc : s.blk.cs = some c) :
    encodePacket s = finishPacket (Config.codecEncode c frame) s := by
  simp [encodePacket, hf, hc]

theorem countSubFrame_next {s t : State} (h : countSubFrame s = .next t) : SubmitEffect s t := by
  unfold countSubFrame at h
  split at h
  · rename_i hc
    cases h
    exact .buffered hc
  · rename_i hn
    cases hf : memRead s.blk.buf 0 (pktSamples s.blk.cfgFd) with
    | none => simp [encodePacket, hf] at h
    | some frame =>
      cases hc : s.blk.cs with
      | none => simp [encodePacket, hf, hc] at h
      | some c =>
        rw [encodePacket_eq hf hc] at h
        cases he : Config.codecEncode c frame with
        | fail =>
          rw [he, finishPacket_fail] at h
          cases h
          exact .codecFails frame c hn hf hc he
        | ok c' bytes speech =>
          by_cases hl : bytes.length = requiredOutputSize s.blk.cfgFd
          · rw [he, finishPacket_emits hl] at h
            cases h
            exact .emitted frame c c' bytes speech hn hf hc he hl
          · rw [he, finishPacket_wrongSize hl] at h
            cases h
            exact .wrongSize frame c c' bytes speech hn hf hc he hl

/-- A SUBMIT of 80 samples to an instance is the append and what follows it. -/
theorem execSubmit_of_ready {ts : Word32} {len : Word16} {samples : List Sample} {s : State}
    (hl : s.blk.life = .ready) (hn : len.toNat = 80) :
    execSubmit ts len samples s = countSubFrame (s.setBlk (appendSubFrame ts samples s.blk)) := by
  rw [execSubmit, whenReady_of_ready hl, if_neg (by simpa [Config.sfSamples] using hn)]

theorem execSubmit_next {ts : Word32} {len : Word16} {samples : List Sample} {s t : State}
    (h : execSubmit ts len samples s = .next t) :
    (s.blk.life = .unconstructed ∧ t = enterFault .noInstance 5 5 s) ∨
    (s.blk.life = .ready ∧ len.toNat ≠ 80 ∧ t = enterFault .contractLength len 5 s) ∨
    (s.blk.life = .ready ∧ len.toNat = 80 ∧
      SubmitEffect (s.setBlk (appendSubFrame ts samples s.blk)) t) := by
  rcases whenReady_next h with ⟨hl, h⟩ | ⟨hl, rfl⟩
  · by_cases hn : len.toNat = 80
    · rw [if_neg (by simpa [Config.sfSamples] using hn)] at h
      exact .inr (.inr ⟨hl, hn, countSubFrame_next h⟩)
    · rw [if_pos (by simpa [Config.sfSamples] using hn)] at h
      cases h
      exact .inr (.inl ⟨hl, hn, rfl⟩)
  · exact .inl ⟨hl, rfl⟩

end Sys2Proof.Machine
end

