-- ==== Sys2Proof/Laws/Exec.lean ====
section
/-! SUPPORT. What one command, and one step, can do: the inversion lemmas from which the invariants and
the frames follow. -/

namespace Sys2Proof.Machine

open Sys2Proof Sys2Proof.Safety

/-- A response that only reports a value: what queries, RESOLVE and CAPABILITY return. -/
def Response.reports : Response → Bool
  | .ok .plain => false
  | .ok _ => true
  | .unsupported => true
  | .noPacket => false
  | .packet _ => false

/-- Everything a command that answers a next state can have done. -/
inductive Effect (i : Instr) (s : State) : State → Prop where
  | noInstance (hi : needsInstance i = true) (hl : s.blk.life = .unconstructed) :
      Effect i s (enterFault .noInstance (i.word.setWidth 16) i.word s)
  | alreadyConstructed (hi : constructs i = true) (hl : s.blk.life = .ready) :
      Effect i s (enterFault .alreadyConstructed (i.word.setWidth 16) i.word s)
  | constructed (hi : constructs i = true) (hl : s.blk.life = .unconstructed) (fd : Word16) (pt : Byte)
      (hfd : fd = 20 ∨ fd = 30) : Effect i s ((construct fd pt s).setResp (some (.ok .plain)))
  | unsupported (hi : constructs i = true) (hl : s.blk.life = .unconstructed) :
      Effect i s (s.setResp (some .unsupported))
  | reported (hi : constructs i = false) (hl : s.blk.life ≠ .faulted) (r : Response)
      (hr : r.reports = true) : Effect i s (s.setResp (some r))
  | destroyed (hi : i = .destroy) (hl : s.blk.life = .ready) :
      Effect i s ((s.setBlk (endInstance s.blk)).setResp (some (.ok .plain)))
  | resetDone (hi : i = .reset) (hl : s.blk.life = .ready) :
      Effect i s ((s.setBlk (resetPacketizer s.blk)).setResp (some (.ok .plain)))
  | wrongLength (ts : Word32) (len : Word16) (samples : List Sample) (hi : i = .submit ts len samples)
      (hl : s.blk.life = .ready) (hn : len.toNat ≠ 80) :
      Effect i s (enterFault .contractLength len i.word s)
  | submitted (ts : Word32) (len : Word16) (samples : List Sample) (hi : i = .submit ts len samples)
      (hl : s.blk.life = .ready) (hn : len.toNat = 80) {t : State}
      (h : SubmitEffect (s.setBlk (appendSubFrame ts samples s.blk)) t) : Effect i s t

/-! ## The arms of `exec` -/

theorem exec_constructCfg {pt : Byte} {fd : Word16} {s : State} :
    exec (.constructCfg pt fd) s =
    whenUnconstructed 0x01 s
      (constructIf (validConfig fd.toNat Config.sampleRate Config.channels) fd pt) := rfl

theorem exec_constructLegacy {pt : Byte} {rate : Word32} {ch : Byte} {fd : Word16} {s : State} :
    exec (.constructLegacy pt rate ch fd) s =
    whenUnconstructed 0x02 s
      (constructIf (validConfig fd.toNat rate.toNat ch.toNat) fd pt) := rfl

theorem exec_constructFmt {pt : Byte} {fmt : FormatDescriptor} {s : State} :
    exec (.constructFmt pt fmt) s =
    whenUnconstructed 0x03 s fun s =>
      match resolve fmt with
      | .unsupported => constructIf false 0 pt s
      | .cfg fd => constructIf true fd pt s := rfl

theorem exec_destroy {s : State} :
    exec (.destroy) s =
    whenReady 0x04 s fun s =>
      respond (.ok .plain) (s.setBlk (endInstance s.blk)) := rfl

theorem exec_submit {ts : Word32} {len : Word16} {samples : List Sample} {s : State} :
    exec (.submit ts len samples) s =
    execSubmit ts len samples s := rfl

theorem exec_reset {s : State} :
    exec (.reset) s =
    whenReady 0x06 s fun s =>
      respond (.ok .plain) (s.setBlk (resetPacketizer s.blk)) := rfl

theorem exec_qRate {s : State} :
    exec (.qRate) s =
    whenReady 0x07 s (respondValue Config.sampleRate) := rfl

theorem exec_qChannels {s : State} :
    exec (.qChannels) s =
    whenReady 0x08 s (respondValue Config.channels) := rfl

theorem exec_qNext {s : State} :
    exec (.qNext) s =
    whenReady 0x09 s fun s =>
      respondValue (target s.blk.cfgFd - s.blk.counter.toNat) s := rfl

theorem exec_qMax {s : State} :
    exec (.qMax) s =
    whenReady 0x0A s fun s => respondValue (target s.blk.cfgFd) s := rfl

theorem exec_qBitrate {s : State} :
    exec (.qBitrate) s =
    whenReady 0x0B s fun s => respondValue (bitrate s.blk.cfgFd) s := rfl

theorem exec_qName {s : State} :
    exec (.qName) s =
    whenAlive s (respond (.ok (.name Config.codecName))) := rfl

theorem exec_resolve {fmt : FormatDescriptor} {s : State} :
    exec (.resolve fmt) s =
    whenAlive s (respond (resolveResponse fmt)) := rfl

theorem exec_capability {fmt : FormatDescriptor} {s : State} :
    exec (.capability fmt) s =
    whenAlive s (respond (capabilityResponse fmt)) := rfl

/-- The missing-instance fault of a command with a known word. -/
theorem noInstance_at {i : Instr} {cw : Byte} {s : State} (hw : i.word = cw)
    (hi : needsInstance i = true) (hl : s.blk.life = .unconstructed) :
    Effect i s (enterFault .noInstance (cw.setWidth 16) cw s) := by
  subst hw
  exact .noInstance hi hl

/-- The wrong-length fault of SUBMIT. -/
theorem wrongLength_at {ts : Word32} {len : Word16} {samples : List Sample} {s : State}
    (hl : s.blk.life = .ready) (hn : len.toNat ≠ 80) :
    Effect (.submit ts len samples) s (enterFault .contractLength len 5 s) := by
  have := Effect.wrongLength (i := .submit ts len samples) ts len samples rfl hl hn
  rwa [word_submit] at this

/-- A whenReady query. -/
theorem query_effect {i : Instr} {cw : Byte} {s t : State} {k : State → Result}
    (hw : i.word = cw) (hi : needsInstance i = true) (hc : constructs i = false)
    (hk : k s = .next t → ∃ v, t = s.setResp (some (.ok (.value v))))
    (h : whenReady cw s k = .next t) : Effect i s t := by
  rcases whenReady_next h with ⟨hl, h⟩ | ⟨hl, rfl⟩
  · obtain ⟨v, rfl⟩ := hk h
    exact .reported hc (by simp [hl]) _ rfl
  · subst hw
    exact .noInstance hi hl

/-- One construction command. -/
theorem construct_effect {i : Instr} {cw : Byte} {s t : State} {k : State → Result}
    (hw : i.word = cw) (hi : constructs i = true)
    (hk : k s = .next t → (∃ fd pt, (fd = 20 ∨ fd = 30) ∧
      t = (construct fd pt s).setResp (some (.ok .plain))) ∨ t = s.setResp (some .unsupported))
    (h : whenUnconstructed cw s k = .next t) : Effect i s t := by
  rcases whenUnconstructed_next h with ⟨hl, h⟩ | ⟨hl, rfl⟩
  · rcases hk h with ⟨fd, pt, hfd, rfl⟩ | rfl
    · exact .constructed hi hl fd pt hfd
    · exact .unsupported hi hl
  · subst hw
    exact .alreadyConstructed hi hl

theorem respondValue_next {n : Nat} {s t : State} (h : respondValue n s = .next t) :
    ∃ v, t = s.setResp (some (.ok (.value v))) := by
  cases h
  exact ⟨_, rfl⟩

/-- EVERY COMMAND: what it can have done when it answers a next state. -/
theorem exec_effect {i : Instr} {s t : State} (h : exec i s = .next t) : Effect i s t := by
  cases i with
  | constructCfg pt fd =>
    refine construct_effect (word_constructCfg pt fd) rfl (fun h => ?_) (exec_constructCfg ▸ h)
    rcases constructIf_next h with ⟨hv, rfl⟩ | ⟨_, rfl⟩
    · exact .inl ⟨fd, pt, validConfig_word hv, rfl⟩
    · exact .inr rfl
  | constructLegacy pt rate ch fd =>
    refine construct_effect (word_constructLegacy pt rate ch fd) rfl (fun h => ?_) (exec_constructLegacy ▸ h)
    rcases constructIf_next h with ⟨hv, rfl⟩ | ⟨_, rfl⟩
    · exact .inl ⟨fd, pt, validConfig_word hv, rfl⟩
    · exact .inr rfl
  | constructFmt pt fmt =>
    refine construct_effect (word_constructFmt pt fmt) rfl (fun h => ?_) (exec_constructFmt ▸ h)
    cases hr : resolve fmt with
    | unsupported =>
      simp only [hr] at h
      rcases constructIf_next h with ⟨hv, _⟩ | ⟨_, rfl⟩
      · cases hv
      · exact .inr rfl
    | cfg fd =>
      simp only [hr] at h
      rcases constructIf_next h with ⟨_, rfl⟩ | ⟨hv, _⟩
      · exact .inl ⟨fd, pt, resolve_cfg hr, rfl⟩
      · cases hv
  | destroy =>
    rw [exec_destroy] at h
    rcases whenReady_next h with ⟨hl, h⟩ | ⟨hl, rfl⟩
    · cases h; exact .destroyed rfl hl
    · exact noInstance_at (word_destroy) rfl hl
  | submit ts len samples =>
    rcases execSubmit_next h with ⟨hl, rfl⟩ | ⟨hl, hn, rfl⟩ | ⟨hl, hn, h⟩
    · exact noInstance_at (word_submit _ _ _) rfl hl
    · exact wrongLength_at hl hn
    · exact .submitted ts len samples rfl hl hn h
  | reset =>
    rw [exec_reset] at h
    rcases whenReady_next h with ⟨hl, h⟩ | ⟨hl, rfl⟩
    · cases h; exact .resetDone rfl hl
    · exact noInstance_at (word_reset) rfl hl
  | qRate => exact query_effect word_qRate rfl rfl respondValue_next (exec_qRate ▸ h)
  | qChannels => exact query_effect word_qChannels rfl rfl respondValue_next (exec_qChannels ▸ h)
  | qNext => exact query_effect word_qNext rfl rfl respondValue_next (exec_qNext ▸ h)
  | qMax => exact query_effect word_qMax rfl rfl respondValue_next (exec_qMax ▸ h)
  | qBitrate => exact query_effect word_qBitrate rfl rfl respondValue_next (exec_qBitrate ▸ h)
  | qName =>
    rw [exec_qName] at h
    obtain ⟨hl, h⟩ := whenAlive_next h
    cases h
    exact .reported rfl hl _ rfl
  | resolve fmt =>
    rw [exec_resolve] at h
    obtain ⟨hl, h⟩ := whenAlive_next h
    cases h
    refine .reported rfl hl _ ?_
    unfold resolveResponse
    split <;> rfl
  | capability fmt =>
    rw [exec_capability] at h
    obtain ⟨hl, h⟩ := whenAlive_next h
    cases h
    refine .reported rfl hl _ ?_
    unfold capabilityResponse
    split <;> rfl

/-- A faulted block performs no command. -/
theorem exec_faulted (i : Instr) {s : State} (h : s.blk.life = .faulted) :
    exec i s = .fault .blockFaulted := by
  cases i with
  | constructCfg pt fd => exact whenUnconstructed_of_faulted h
  | constructLegacy pt rate ch fd => exact whenUnconstructed_of_faulted h
  | constructFmt pt fmt => rw [exec_constructFmt]; exact whenUnconstructed_of_faulted h
  | destroy => rw [exec_destroy]; exact whenReady_of_faulted h
  | submit ts len samples => rw [exec_submit, execSubmit]; exact whenReady_of_faulted h
  | reset => rw [exec_reset]; exact whenReady_of_faulted h
  | qRate => rw [exec_qRate]; exact whenReady_of_faulted h
  | qChannels => rw [exec_qChannels]; exact whenReady_of_faulted h
  | qNext => rw [exec_qNext]; exact whenReady_of_faulted h
  | qMax => rw [exec_qMax]; exact whenReady_of_faulted h
  | qBitrate => rw [exec_qBitrate]; exact whenReady_of_faulted h
  | qName => rw [exec_qName]; exact whenAlive_of_faulted h
  | resolve fmt => rw [exec_resolve]; exact whenAlive_of_faulted h
  | capability fmt => rw [exec_capability]; exact whenAlive_of_faulted h

/-! ## One step -/

/-- Everything a step that answers a next state can have done. -/
inductive StepEffect (s : State) : State → Prop where
  | idle (hp : s.port = []) (hl : s.blk.life ≠ .faulted) : StepEffect s s
  | powerOn (rest : List HostEvent) (hp : s.port = .powerOnReset :: rest) :
      StepEffect s (applyPowerOn (s.setPort rest))
  | illegal (c : Command) (rest : List HostEvent) (hp : s.port = .command c :: rest)
      (hl : s.blk.life ≠ .faulted) (hw : illegalWord c.word = true) :
      StepEffect s (enterFault .illegalCommand (c.word.setWidth 16) c.word (s.setPort rest))
  | performed (c : Command) (rest : List HostEvent) (i : Instr) (hp : s.port = .command c :: rest)
      (hl : s.blk.life ≠ .faulted) (hd : decode c = .ok i) {t : State}
      (h : exec i (s.setPort rest) = .next t) : StepEffect s t

/-- ONE STEP: what it can have done when it answers a next state. -/
theorem step_effect {s t : State} (h : step s = .next t) : StepEffect s t := by
  unfold step performNext at h
  split at h
  · rename_i hp
    unfold Sys2Proof.Machine.idle at h
    split at h
    · cases h
    · rename_i hl; cases h; exact .idle hp (by simp [hl])
    · rename_i hl; cases h; exact .idle hp (by simp [hl])
  · rename_i rest hp
    cases h
    exact .powerOn rest hp
  · rename_i c rest hp
    have hl : s.blk.life ≠ .faulted := by
      intro hf
      simp [performCommand, hf] at h
    have h' : (match decode c with
        | .ok i => exec i (s.setPort rest)
        | .error e => if e.illegalWord then raiseIllegal c.word (s.setPort rest)
            else .refused .malformedBundle) = .next t := by
      unfold performCommand at h
      simp only [State.setPort_blk] at h
      split at h
      · cases h
      · exact h
      · exact h
    cases hd : decode c with
    | ok i =>
      rw [hd] at h'
      exact .performed c rest i hp hl hd h'
    | error e =>
      rw [hd] at h'
      simp only at h'
      split at h'
      · rename_i he
        cases h'
        exact .illegal c rest hp hl (by rw [← decode_error_illegal hd, he])
      · cases h'

/-- A step with a command that decodes is that command's effect, with the command taken off the port. -/
theorem step_command {s : State} {c : Command} {rest : List HostEvent} {i : Instr}
    (hp : s.port = .command c :: rest) (hl : s.blk.life ≠ .faulted) (hd : decode c = .ok i) :
    performNext exec s = exec i (s.setPort rest) := by
  unfold performNext
  rw [hp]
  simp only
  unfold performCommand
  simp only [State.setPort_blk]
  split
  · contradiction
  · rw [hd]
  · rw [hd]

end Sys2Proof.Machine
end

