-- ==== Sys2Proof/Laws/PerInstr.lean ====
section
/-! SUPPORT. Statements about every command as syntax, made once per constructor. -/

namespace Sys2Proof.Laws.LegalWord

open Sys2Proof

/-- The command is encoded in a word that spells a command (30_encoding.md R45, R46, R59), and the
fields it takes survive in its bundle: the decoder never rejects it for its word. -/
def Statement (i : Instr) : Prop :=
  illegalWord (encode i).word = false ∧
    ∀ e, decode (encode i) = .error e → e.illegalWord = false

/-- Every command's statement, from the laws of its word. -/
theorem of_word (i : Instr) : Statement i :=
  ⟨i.word_legal, fun _ h => (decode_error_illegal h).trans i.word_legal⟩

theorem constructCfg (pt : Byte) (fd : Word16) : Statement (.constructCfg pt fd) := of_word _

theorem constructLegacy (pt : Byte) (rate : Word32) (ch : Byte) (fd : Word16) :
    Statement (.constructLegacy pt rate ch fd) := of_word _

theorem constructFmt (pt : Byte) (fmt : FormatDescriptor) : Statement (.constructFmt pt fmt) :=
  of_word _

theorem destroy : Statement .destroy := of_word _

theorem submit (ts : Word32) (len : Word16) (samples : List Sample) :
    Statement (.submit ts len samples) := of_word _

theorem reset : Statement .reset := of_word _

theorem qRate : Statement .qRate := of_word _

theorem qChannels : Statement .qChannels := of_word _

theorem qNext : Statement .qNext := of_word _

theorem qMax : Statement .qMax := of_word _

theorem qBitrate : Statement .qBitrate := of_word _

theorem qName : Statement .qName := of_word _

theorem resolve (fmt : FormatDescriptor) : Statement (.resolve fmt) := of_word _

theorem capability (fmt : FormatDescriptor) : Statement (.capability fmt) := of_word _

end Sys2Proof.Laws.LegalWord
end

