-- ==== Sys2Proof/Machine/Assembler.lean ====
section
/-! DEFINITION. The command text of 30_encoding.md R61 and the pseudo-commands of R62: reading a line,
its expansion to commands, and the line's encoding. The syntax is the spec's own (D29); what R61 does
not settle about it is a DESIGN CHOICE (log 17, safe): no claim about the block rests on it. -/

namespace Sys2Proof.Machine

open Sys2Proof

/-! ## Lines and their expansion -/

/-- One line of command text: a command, or a pseudo-command (30_encoding.md R62). -/
inductive AsmLine where
  | command (i : Instr)
  | new20 (pt : Byte)
  | new30 (pt : Byte)
  | fill (ts step : Word32) (samples : List (List Sample))
  deriving DecidableEq, Repr

/-- The SUBMIT commands of `FILL`: each timestamp is the one before it plus the step, modulo 2^32. -/
def expandFill (ts step : Word32) : List (List Sample) → List Instr
  | [] => []
  | a :: rest => .submit ts 80 a :: expandFill (ts + step) step rest

/-- The commands a line stands for (30_encoding.md R62). -/
def AsmLine.expand : AsmLine → List Instr
  | .command i => [i]
  | .new20 pt => [.constructCfg pt 20]
  | .new30 pt => [.constructCfg pt 30]
  | .fill ts step samples => expandFill ts step samples

/-- A hexadecimal digit, in capitals. -/
def hexDigit (n : Nat) : Char := if n < 10 then Char.ofNat (48 + n) else Char.ofNat (55 + n)

/-- A command word as two hexadecimal digits (30_encoding.md R61). -/
def wordText (w : Byte) : List Char := [hexDigit (w.toNat / 16), hexDigit (w.toNat % 16)]

/-- The encoding of a line (30_encoding.md R61): for each command, its word in two hexadecimal digits
and its operand fields. -/
def AsmLine.encoding (l : AsmLine) : List (List Char × Bundle) :=
  l.expand.map (fun i => (wordText i.word, i.bundle))

/-! ## Reading numbers (decimal, or hexadecimal after `0x`) -/

/-- The value of a digit below the radix. -/
def digitValue (radix : Nat) (c : Char) : Option Nat :=
  let n := c.toNat
  let v := if 48 ≤ n ∧ n ≤ 57 then n - 48 else if 65 ≤ n ∧ n ≤ 70 then n - 55
    else if 97 ≤ n ∧ n ≤ 102 then n - 87 else radix
  if v < radix then some v else none

/-- The value of digits, most significant first, after those read so far. -/
def digitsValue (radix : Nat) (acc : Nat) : List Char → Option Nat
  | [] => some acc
  | c :: cs =>
    match digitValue radix c with
    | none => none
    | some v => digitsValue radix (acc * radix + v) cs

/-- An unsigned number. -/
def readNat : List Char → Option Nat
  | [] => none
  | '0' :: 'x' :: c :: cs => digitsValue 16 0 (c :: cs)
  | c :: cs => digitsValue 10 0 (c :: cs)

/-- An unsigned number that fits in `w` bits. -/
def readWord (w : Nat) (cs : List Char) : Option (BitVec w) :=
  match readNat cs with
  | none => none
  | some n => if n < 2 ^ w then some (BitVec.ofNat w n) else none

/-- A sample: an int16 value, with a sign when it is negative. -/
def readSample : List Char → Option Sample
  | '-' :: cs =>
    match readNat cs with
    | none => none
    | some n => if n ≤ 32768 then some (BitVec.ofInt 16 (-(n : Int))) else none
  | cs =>
    match readNat cs with
    | none => none
    | some n => if n ≤ 32767 then some (BitVec.ofNat 16 n) else none

/-! ## Tokens -/

/-- A token of command text. -/
inductive Token where
  | word (cs : List Char)
  | text (cs : List Char)
  | equals
  | comma
  | openList
  | closeList
  | openDescriptor
  | closeDescriptor
  deriving DecidableEq, Repr

/-- The token a single punctuation character spells. -/
def punctuation (c : Char) : Option Token :=
  if c.toNat = 61 then some .equals
  else if c.toNat = 44 then some .comma
  else if c.toNat = 91 then some .openList
  else if c.toNat = 93 then some .closeList
  else if c.toNat = 123 then some .openDescriptor
  else if c.toNat = 125 then some .closeDescriptor
  else none

/-- What the tokenizer is in the middle of, its characters last first. -/
inductive Pending where
  | nothing
  | word (revChars : List Char)
  | text (revChars : List Char)

/-- The token a pending word makes, before the tokens that follow it. -/
def Pending.close (p : Pending) (rest : List Token) : List Token :=
  match p with
  | .nothing => rest
  | .word cs => .word cs.reverse :: rest
  | .text cs => .text cs.reverse :: rest

/-- The pending word with one more character. -/
def Pending.add (p : Pending) (c : Char) : Pending :=
  match p with
  | .nothing => .word [c]
  | .word cs => .word (c :: cs)
  | .text cs => .text (c :: cs)

/-- The tokens of a line: spaces separate words, and a text stands between quotation marks. None where
a text is not closed. -/
def tokensFrom : Pending → List Char → Option (List Token)
  | .text _, [] => none
  | p, [] => some (p.close [])
  | .text cs, c :: rest =>
    if c.toNat = 34 then (tokensFrom .nothing rest).map (Pending.close (.text cs))
    else tokensFrom (.text (c :: cs)) rest
  | p, c :: rest =>
    if c.toNat = 34 then (tokensFrom (.text []) rest).map p.close
    else if c.toNat = 32 then (tokensFrom .nothing rest).map p.close
    else
      match punctuation c with
      | some t => (tokensFrom .nothing rest).map (fun ts => p.close (t :: ts))
      | none => tokensFrom (p.add c) rest

/-! ## Reading a line -/

/-- Named sample sequences, for `samples=<name>`. -/
abbrev SampleNames := List (List Char × List Sample)

/-- `key=<number>`, of `w` bits, and the tokens after it. -/
def readField (w : Nat) (key : String) : List Token → Option (BitVec w × List Token)
  | .word k :: .equals :: .word v :: rest =>
    if k = key.toList then (readWord w v).map (fun x => (x, rest)) else none
  | _ => none

/-- A comma, and then what `next` reads. -/
def afterComma {α : Type} (next : List Token → Option α) : List Token → Option α
  | .comma :: rest => next rest
  | _ => none

/-- `key=` and then what `next` reads. -/
def afterKey {α : Type} (key : String) (next : List Token → Option α) : List Token → Option α
  | .word k :: .equals :: rest => if k = key.toList then next rest else none
  | _ => none

/-- A descriptor's end, with the framing parameter absent, well-formed, or not well-formed
(30_encoding.md R53, R61). DESIGN CHOICE (log 17, safe): the framing fields that R53 says are ignored
and the text does not give are zero: `FMT_FR_WF` and `FMT_FR_VAL` without `fr`, `FMT_FR_VAL` with
`fr=?`. -/
def readFraming (name : List Byte) (rate : Word32) (ch : Byte) :
    List Token → Option (FormatDescriptor × List Token)
  | .closeDescriptor :: rest => some (⟨name, rate, ch, false, false, 0⟩, rest)
  | .comma :: .word k :: .equals :: .word v :: .closeDescriptor :: rest =>
    if k = "fr".toList then
      if v = "?".toList then some (⟨name, rate, ch, true, false, 0⟩, rest)
      else (readWord 16 v).map (fun x => (⟨name, rate, ch, true, true, x⟩, rest))
    else none
  | _ => none

/-- The bytes of a codec name. DESIGN CHOICE (log 17, safe): R61 does not say which characters the text
may hold, so each character gives its code point modulo 256, which is its byte up to code point 255. -/
def nameBytes (cs : List Char) : List Byte := cs.map (fun c => BitVec.ofNat 8 c.toNat)

/-- A descriptor (30_encoding.md R61). -/
def readDescriptor : List Token → Option (FormatDescriptor × List Token)
  | .openDescriptor :: .word k :: .equals :: .text n :: rest =>
    if k = "name".toList then
      match afterComma (readField 32 "rate") rest with
      | none => none
      | some (rate, rest) =>
        match afterComma (readField 8 "ch") rest with
        | none => none
        | some (ch, rest) => readFraming (nameBytes n) rate ch rest
    else none
  | _ => none

/-- The rest of a list of samples, after its opening bracket or a comma. -/
def readSampleList : List Token → Option (List Sample × List Token)
  | .word v :: .closeList :: rest => (readSample v).map (fun x => ([x], rest))
  | .word v :: .comma :: rest =>
    match readSample v, readSampleList rest with
    | some x, some (xs, rest) => some (x :: xs, rest)
    | _, _ => none
  | _ => none

/-- A sample sequence: a name, or a list of samples (30_encoding.md R61). DESIGN CHOICE (log 17, safe):
the list may be empty, for a SUBMIT of length 0, and of two sequences of one name the first counts. -/
def readSamples (names : SampleNames) : List Token → Option (List Sample × List Token)
  | .openList :: .closeList :: rest => some ([], rest)
  | .openList :: rest => readSampleList rest
  | .word n :: rest => (names.lookup n).map (fun xs => (xs, rest))
  | _ => none

/-- The rest of `FILL`'s list of named sample sequences, after its opening bracket or a comma: a comma
stands between two names, never before the closing bracket. -/
def readSequences (names : SampleNames) : List Token → Option (List (List Sample) × List Token)
  | .word n :: .closeList :: rest => (names.lookup n).map (fun xs => ([xs], rest))
  | .word n :: .comma :: rest =>
    match names.lookup n, readSequences names rest with
    | some xs, some (xss, rest) => some (xs :: xss, rest)
    | _, _ => none
  | _ => none

/-- `FILL`'s list of named sample sequences. DESIGN CHOICE (log 17, safe): it may be empty, as
SUBMIT's list of samples may. -/
def readSequenceList (names : SampleNames) : List Token → Option (List (List Sample) × List Token)
  | .openList :: .closeList :: rest => some ([], rest)
  | .openList :: rest => readSequences names rest
  | _ => none

/-- The operands of SUBMIT: exactly `n` samples (30_encoding.md R49). -/
def readSubmit (names : SampleNames) (toks : List Token) : Option (Instr × List Token) :=
  match readField 32 "ts" toks with
  | none => none
  | some (ts, toks) =>
    match afterComma (readField 16 "n") toks with
    | none => none
    | some (n, toks) =>
      match afterComma (afterKey "samples" (readSamples names)) toks with
      | none => none
      | some (xs, toks) => if samplesMatch n xs then some (.submit ts n xs, toks) else none

/-- The operands of FILL: exactly `count` sequences of 80 samples (30_encoding.md R62). DESIGN CHOICE
(log 17, safe): R62 gives `step` and `count` no range, so each is read as an unsigned 32-bit number, and
a line with a larger or a negative one is no line. -/
def readFill (names : SampleNames) (toks : List Token) : Option (AsmLine × List Token) :=
  match readField 32 "ts" toks with
  | none => none
  | some (ts, toks) =>
    match afterComma (readField 32 "step") toks with
    | none => none
    | some (step, toks) =>
      match afterComma (readField 32 "count") toks with
      | none => none
      | some (count, toks) =>
        match afterComma (afterKey "samples" (readSequenceList names)) toks with
        | none => none
        | some (xss, toks) =>
          if xss.length = count.toNat ∧ xss.all (fun xs => xs.length == 80)
          then some (.fill ts step xss, toks) else none

/-- The operands of CONSTRUCT_LEGACY. -/
def readLegacy (pt : Byte) (toks : List Token) : Option (Instr × List Token) :=
  match afterComma (readField 32 "rate") toks with
  | none => none
  | some (rate, toks) =>
    match afterComma (readField 8 "ch") toks with
    | none => none
    | some (ch, toks) =>
      (afterComma (readField 16 "fd") toks).map (fun p => (.constructLegacy pt rate ch p.1, p.2))

/-- A line's tokens after its mnemonic, for the mnemonics that take operands. -/
def readOperands (names : SampleNames) (mnemonic : List Char) (toks : List Token) :
    Option (AsmLine × List Token) :=
  let asCommand := fun (p : Instr × List Token) => (AsmLine.command p.1, p.2)
  if mnemonic = "SUBMIT".toList then (readSubmit names toks).map asCommand
  else if mnemonic = "FILL".toList then readFill names toks
  else if mnemonic = "RESOLVE".toList then
    (afterKey "fmt" readDescriptor toks).map (fun p => (.command (.resolve p.1), p.2))
  else if mnemonic = "CAPABILITY".toList then
    (afterKey "fmt" readDescriptor toks).map (fun p => (.command (.capability p.1), p.2))
  else
    match readField 8 "pt" toks with
    | none => none
    | some (pt, toks) =>
      if mnemonic = "NEW20".toList then some (.new20 pt, toks)
      else if mnemonic = "NEW30".toList then some (.new30 pt, toks)
      else if mnemonic = "CONSTRUCT_CFG".toList then
        (afterComma (readField 16 "fd") toks).map
          (fun p => (.command (.constructCfg pt p.1), p.2))
      else if mnemonic = "CONSTRUCT_LEGACY".toList then (readLegacy pt toks).map asCommand
      else if mnemonic = "CONSTRUCT_FMT".toList then
        (afterComma (afterKey "fmt" readDescriptor) toks).map
          (fun p => (.command (.constructFmt pt p.1), p.2))
      else none

/-- The commands that take no operand, by mnemonic. -/
def plainCommands : List (List Char × Instr) :=
  [("DESTROY".toList, .destroy), ("RESET".toList, .reset), ("Q_RATE".toList, .qRate),
   ("Q_CHANNELS".toList, .qChannels), ("Q_NEXT".toList, .qNext), ("Q_MAX".toList, .qMax),
   ("Q_BITRATE".toList, .qBitrate), ("Q_NAME".toList, .qName)]

/-- One line of command text (30_encoding.md R61, R62), none where it is not of that form. A codec name
longer than 255 bytes is none too (R53). -/
def readLine (names : SampleNames) (line : List Char) : Option AsmLine :=
  match tokensFrom .nothing line with
  | some [.word m] => (plainCommands.lookup m).map .command
  | some (.word m :: toks) =>
    match readOperands names m toks with
    | some (l, []) => if l.expand.all WellFormed then some l else none
    | _ => none
  | _ => none

end Sys2Proof.Machine
end

