-- ==== Sys2Proof/Tests/Slice0.lean ====
section
/-! SUPPORT. Tests of one step each, with expected results from spec/95_test_vectors.md (the vector is
named in each comment) or from spec/30_encoding.md, and for every obligation with hypotheses a witness:
a concrete state and operands that meet all of them together. -/

namespace Sys2Proof.Tests

open Sys2Proof Sys2Proof.Machine Sys2Proof.Safety

/-! ## Small states and operands -/

/-- 80 samples, all different. -/
def samplesA : List Sample := (List.range 80).map (BitVec.ofNat 16)

/-- 80 samples of the most negative value. -/
def samplesB : List Sample := List.replicate 80 0x8000

/-- An instance with payload type 9, some sub-frames buffered, and Codec Core state 7. -/
def ready (fd : Word16) (counter : BitVec 2) (ts0 : Word32) (buffered : List Sample) : State :=
  { blk :=
      { life := .ready, cfgFd := fd, cfgPt := 9, counter := counter, ts0 := ts0
        buf := memWrite [] 0 buffered, cs := some ⟨7⟩
        faultCause := 0, faultOpc := 0, faultInfo := 0 }
    port := []
    resp := none }

/-- A faulted block: F_CONTRACT_LENGTH with 40 samples (95_test_vectors.md P4). -/
def halted : State := faultState 4 0x5 40 (ready 20 1 0 samplesA)

/-- A descriptor with an accepted rate and channel count and no framing parameter. -/
def plainFmt : FormatDescriptor := ⟨[110], 8000, 1, false, false, 0⟩

/-- A descriptor whose framing parameter is not well-formed. -/
def badFraming : FormatDescriptor := ⟨[110], 8000, 1, true, false, 30⟩

/-- A descriptor whose framing parameter is 40. -/
def framing40 : FormatDescriptor := ⟨[110], 8000, 1, true, true, 40⟩

/-- A descriptor with the longest codec name there is. -/
def longName : FormatDescriptor := { plainFmt with name := List.replicate 255 97 }

/-- An operand bundle with every field set. -/
def bundle : Bundle :=
  { pt := 3, fd := 30, legRate := 8000, legCh := 1, legFd := 20, fmt := badFraming
    ts := 0xFFFFFFFF, len := 80, samples := samplesA }

/-- A state with one more command to perform. -/
def issued (w : Byte) (s : State) : State := issueNext ⟨w, bundle⟩ s

/-! ## Well-formedness: every check refuses an ill-formed term -/

theorem test_submit_samples_not_len_ill_formed : WellFormed (.submit 0 79 samplesA) = false := by decide

theorem test_construct_name_too_long_ill_formed :
    WellFormed (.constructFmt 0 { plainFmt with name := List.replicate 256 97 }) = false := by decide +kernel

theorem test_resolve_name_too_long_ill_formed :
    WellFormed (.resolve { plainFmt with name := List.replicate 256 97 }) = false := by decide +kernel

theorem test_capability_name_too_long_ill_formed :
    WellFormed (.capability { plainFmt with name := List.replicate 256 97 }) = false := by decide +kernel

theorem test_longest_name_well_formed : WellFormed (.resolve longName) = true := by decide +kernel

theorem test_wrong_length_submit_well_formed : WellFormed (.submit 0 1 [5]) = true := by decide

/-! ## Decoding: each command's word, bit by bit from 30_encoding.md R45 and R46 -/

theorem test_decode_constructCfg : decode ⟨0b00000001, bundle⟩ = .ok (.constructCfg 3 30) := by rfl

theorem test_decode_constructLegacy :
    decode ⟨0b00000010, bundle⟩ = .ok (.constructLegacy 3 8000 1 20) := by rfl

theorem test_decode_constructFmt :
    decode ⟨0b00000011, bundle⟩ = .ok (.constructFmt 3 badFraming) := by rfl

theorem test_decode_destroy : decode ⟨0b00000100, bundle⟩ = .ok .destroy := by rfl

theorem test_decode_submit : decode ⟨0b00000101, bundle⟩ = .ok (.submit 0xFFFFFFFF 80 samplesA) := by
  rfl

theorem test_decode_reset : decode ⟨0b00000110, bundle⟩ = .ok .reset := by rfl

theorem test_decode_qRate : decode ⟨0b00000111, bundle⟩ = .ok .qRate := by rfl

theorem test_decode_qChannels : decode ⟨0b00001000, bundle⟩ = .ok .qChannels := by rfl

theorem test_decode_qNext : decode ⟨0b00001001, bundle⟩ = .ok .qNext := by rfl

theorem test_decode_qMax : decode ⟨0b00001010, bundle⟩ = .ok .qMax := by rfl

theorem test_decode_qBitrate : decode ⟨0b00001011, bundle⟩ = .ok .qBitrate := by rfl

theorem test_decode_qName : decode ⟨0b00001100, bundle⟩ = .ok .qName := by rfl

theorem test_decode_resolve : decode ⟨0b00001101, bundle⟩ = .ok (.resolve badFraming) := by rfl

theorem test_decode_capability : decode ⟨0b00001110, bundle⟩ = .ok (.capability badFraming) := by rfl

theorem test_decode_opcode_zero : decode ⟨0b00000000, bundle⟩ = .error .opcodeZero := by rfl

theorem test_decode_opcode_fifteen : decode ⟨0b00001111, bundle⟩ = .error .opcodeFifteen := by rfl

theorem test_decode_reserved_bit : decode ⟨0b10000101, bundle⟩ = .error .reservedBits := by rfl

theorem test_table_word_reset : decodeTableWord 8 0x06 = some .reset := by decide

theorem test_table_word_runs_first :
    ∃ t, step (State.reset.withFetchWord 8 0x06) = .next t ∧ t.blk.faultCause = 2 ∧
      t.blk.faultInfo = 6 := ⟨_, rfl, by decide⟩

/-! ## One step each (95_test_vectors.md) -/

/-- V-K2. -/
theorem test_constructCfg_30 :
    ∃ t, exec (.constructCfg 255 30) State.reset = .next t ∧ t.resp = some (.ok .plain) ∧
      t.blk.life = .ready ∧ t.blk.cfgFd = 30 ∧ t.blk.cfgPt = 255 ∧ t.blk.counter = 0 ∧
      t.blk.cs = some (Config.codecInit ⟨30, 8000, 1⟩) :=
  ⟨_, rfl, rfl, rfl, rfl, rfl, rfl, rfl⟩

/-- V-K3. -/
theorem test_constructCfg_25 :
    exec (.constructCfg 1 25) State.reset = .next (responded .unsupported State.reset) := by rfl

/-- V-K6. -/
theorem test_constructLegacy_30 :
    ∃ t, exec (.constructLegacy 3 8000 1 30) State.reset = .next t ∧ t.blk.life = .ready ∧
      t.blk.cfgFd = 30 ∧ t.blk.cfgPt = 3 := ⟨_, rfl, by simp⟩

/-- V-K7. -/
theorem test_constructLegacy_two_channels :
    exec (.constructLegacy 3 8000 2 20) State.reset = .next (responded .unsupported State.reset) := by
  rfl

/-- V-K9, V-F1: an accepted name and no framing parameter give 20 ms. -/
theorem test_constructFmt_default (h : Config.nameAccept [110] = true) :
    ∃ t, exec (.constructFmt 97 plainFmt) State.reset = .next t ∧ t.blk.life = .ready ∧
      t.blk.cfgFd = 20 := by
  have hr : resolve plainFmt = .cfg 20 := by
    unfold resolve
    rw [if_neg (by decide), if_neg (by decide), if_neg (by rw [show plainFmt.name = [110] from rfl, h]; simp)]
    rfl
  rw [exec_constructFmt, whenUnconstructed_of_unconstructed rfl, hr]
  exact ⟨_, rfl, rfl, rfl⟩

/-- V-K10, V-F8: a framing parameter that is not recognised never gives the default. -/
theorem test_constructFmt_bad_framing :
    exec (.constructFmt 97 badFraming) State.reset = .next (responded .unsupported State.reset) := by
  have hr : resolve badFraming = .unsupported := by
    unfold resolve
    rw [if_neg (by decide), if_neg (by decide)]
    split <;> rfl
  rw [exec_constructFmt, whenUnconstructed_of_unconstructed rfl, hr]
  rfl

/-- V-K12. -/
theorem test_destroy_discards :
    ∃ t, exec .destroy (ready 20 1 5 samplesA) = .next t ∧ t.resp = some (.ok .plain) ∧
      t.blk.life = .unconstructed ∧ t.blk.cs = none := ⟨_, rfl, by decide⟩

/-- V-K13. -/
theorem test_destroy_no_instance :
    exec .destroy State.reset = .next (faultState 2 0x4 0x0004 State.reset) := by rfl

/-- V-S15: the second sub-frame of a 30 ms packet lies above the first, and the timestamp is kept. -/
theorem test_submit_second_of_three :
    ∃ t, exec (.submit 90 80 samplesB) (ready 30 1 10 samplesA) = .next t ∧
      t.resp = some .noPacket ∧ t.blk.counter = 2 ∧ t.blk.ts0 = 10 ∧
      t.blk.buf.read 79 = some 79 ∧ t.blk.buf.read 80 = some 0x8000 ∧
      t.blk.buf.read 159 = some 0x8000 ∧ t.blk.buf.read 160 = none := ⟨_, rfl, by decide +kernel⟩

/-- V-S8: no shortcut for a whole packet. -/
theorem test_submit_160_faults :
    exec (.submit 5 160 (samplesA ++ samplesB)) (ready 20 0 0 []) =
      .next (faultState 4 0x5 160 (ready 20 0 0 [])) := by rfl

/-- V-R1, V-R3: what RESET does to the counter and the Codec Core. -/
theorem test_reset_mid_packet :
    ∃ t, exec .reset (ready 20 1 5 samplesA) = .next t ∧ t.resp = some (.ok .plain) ∧
      t.blk.counter = 0 ∧ t.blk.cs = some (Config.codecReset ⟨7⟩) := ⟨_, rfl, by simp [ready]⟩

/-- V-R4. -/
theorem test_reset_no_instance :
    exec .reset State.reset = .next (faultState 2 0x6 0x0006 State.reset) := by rfl

/-- V-Q1. -/
theorem test_qRate :
    exec .qRate (ready 20 0 0 []) = .next (responded (.ok (.value 8000)) (ready 20 0 0 [])) := by rfl

/-- V-Q2. -/
theorem test_qChannels :
    exec .qChannels (ready 30 2 0 []) = .next (responded (.ok (.value 1)) (ready 30 2 0 [])) := by rfl

/-- V-Q4. -/
theorem test_qNext_one_left :
    exec .qNext (ready 20 1 0 []) = .next (responded (.ok (.value 1)) (ready 20 1 0 [])) := by rfl

/-- V-Q5. -/
theorem test_qNext_empty :
    exec .qNext (ready 30 0 0 []) = .next (responded (.ok (.value 3)) (ready 30 0 0 [])) := by rfl

/-- V-Q9. -/
theorem test_qMax :
    exec .qMax (ready 30 1 0 []) = .next (responded (.ok (.value 3)) (ready 30 1 0 [])) := by rfl

/-- V-Q13: truncation, under the example value of I4. -/
theorem test_qBitrate_truncates (h : Config.bPkt 30 = 50) :
    exec .qBitrate (ready 30 0 0 []) = .next (responded (.ok (.value 13333)) (ready 30 0 0 [])) := by
  rw [exec_qBitrate, whenReady_of_ready rfl]
  simp [respondValue, respond, bitrate, ready, h, responded, State.setResp]

/-- V-Q14. -/
theorem test_qName_no_instance :
    exec .qName State.reset =
      .next (responded (.ok (.name Config.codecName)) State.reset) := by rfl

/-- V-F9. -/
theorem test_resolve_16000 :
    exec (.resolve { plainFmt with rate := 16000 }) State.reset =
      .next (responded .unsupported State.reset) := by rfl

/-- V-F14: the other framing fields are ignored where the parameter is absent. -/
theorem test_resolve_absent_framing (h : Config.nameAccept [110] = true) :
    resolve ⟨[110], 8000, 1, false, false, 99⟩ = .cfg 20 := by
  unfold resolve
  rw [if_neg (by decide), if_neg (by decide), if_neg (by rw [h]; decide)]
  rfl

/-- V-C3. -/
theorem test_capability_16000 :
    exec (.capability { plainFmt with rate := 16000 }) (ready 20 1 0 []) =
      .next (responded .unsupported (ready 20 1 0 [])) := by rfl

/-- V-X3: the reserved bits are checked before the instance. -/
theorem test_reserved_bits_first :
    step (issued 0x85 State.reset) = .next (faultState 1 0x5 0x0085 State.reset) := by rfl

/-- V-X5: no step in FAULTED. -/
theorem test_faulted_has_no_step : step (issued 0x0D halted) = .fault .blockFaulted := by rfl

/-- V-X6. -/
theorem test_power_on_reset :
    step (halted.setPort [.powerOnReset]) = .next State.reset := by rfl

/-! ## The completing SUBMIT, for each answer of the Codec Core -/

/-- A 20 ms instance that has just appended its second sub-frame. -/
def appended : State :=
  (ready 20 1 1000 samplesA).setBlk (appendSubFrame 1080 samplesB (ready 20 1 1000 samplesA).blk)

/-- The two sub-frames of a 20 ms packet, in order. -/
theorem test_packet_samples :
    memRead appended.blk.buf 0 (pktSamples appended.blk.cfgFd) = some (samplesA ++ samplesB) := by
  decide +kernel

/-- The SUBMIT that completes a 20 ms packet calls the Codec Core once, on the whole packet. -/
theorem submit_completes :
    exec (.submit 1080 80 samplesB) (ready 20 1 1000 samplesA) =
      finishPacket (Config.codecEncode ⟨7⟩ (samplesA ++ samplesB)) appended := by
  rw [exec_submit, execSubmit_of_ready rfl rfl]
  change countSubFrame appended = _
  rw [countSubFrame, if_neg (by decide +kernel), encodePacket_eq test_packet_samples rfl]

/-- W1: the packet carries the first timestamp; V-S2: and the payload type. -/
theorem test_submit_packet (c : Config.CodecState) (b : List Byte)
    (h : Config.codecEncode ⟨7⟩ (samplesA ++ samplesB) = .ok c b .active)
    (hl : b.length = Config.bPkt 20) :
    ∃ t, exec (.submit 1080 80 samplesB) (ready 20 1 1000 samplesA) = .next t ∧
      t.resp = some (.packet ⟨b, BitVec.ofNat 16 (Config.bPkt 20), 1000, 9, 0b10⟩) ∧
      t.blk.counter = 0 ∧ t.blk.cs = some c := by
  rw [submit_completes, h, finishPacket_emits hl]
  exact ⟨_, rfl, rfl, rfl, rfl⟩

/-- V-S10. -/
theorem test_submit_codec_fails (h : Config.codecEncode ⟨7⟩ (samplesA ++ samplesB) = .fail) :
    ∃ t, exec (.submit 1080 80 samplesB) (ready 20 1 1000 samplesA) = .next t ∧ t.resp = none ∧
      t.blk.faultCause = 5 ∧ t.blk.faultOpc = 5 ∧ t.blk.faultInfo = 0 := by
  rw [submit_completes, h, finishPacket_fail]
  exact ⟨_, rfl, rfl, rfl, rfl, rfl⟩

/-- V-S11. -/
theorem test_submit_output_size (c : Config.CodecState) (b : List Byte)
    (h : Config.codecEncode ⟨7⟩ (samplesA ++ samplesB) = .ok c b .none)
    (hb : b.length = 37) (hp : Config.bPkt 20 = 38) :
    ∃ t, exec (.submit 1080 80 samplesB) (ready 20 1 1000 samplesA) = .next t ∧ t.resp = none ∧
      t.blk.faultCause = 6 ∧ t.blk.faultInfo = 37 := by
  rw [submit_completes, h, finishPacket_wrongSize (by
    show b.length ≠ Config.bPkt 20
    rw [hb, hp]; decide)]
  exact ⟨_, rfl, rfl, rfl, by simp [hb]⟩

/-! ## Command text (30_encoding.md R61, R62; 95_test_vectors.md P2, P3) -/

theorem test_text_construct :
    readLine [] "CONSTRUCT_LEGACY pt=5, rate=8000, ch=1, fd=0x1E".toList =
      some (.command (.constructLegacy 5 8000 1 30)) := by decide

theorem test_text_descriptor :
    readLine [] ("CAPABILITY fmt=".toList ++ [Char.ofNat 123] ++
      "name=\"n\", rate=8000, ch=1, fr=40".toList ++ [Char.ofNat 125]) =
      some (.command (.capability framing40)) := by decide

theorem test_text_samples :
    readLine [] "SUBMIT ts=7, n=2, samples=[1, -32768]".toList =
      some (.command (.submit 7 2 [1, 0x8000])) := by decide

theorem test_text_new30 :
    (readLine [] "NEW30 pt=0".toList).map AsmLine.expand = some [.constructCfg 0 30] := by decide

theorem test_text_fill :
    (readLine [("C".toList, samplesA), ("D".toList, samplesB)]
      "FILL ts=0xFFFFFFFF, step=80, count=2, samples=[C, D]".toList).map AsmLine.expand =
      some [.submit 0xFFFFFFFF 80 samplesA, .submit 79 80 samplesB] := by decide

theorem test_text_trailing_comma :
    readLine [("C".toList, samplesA)] "FILL ts=0, step=80, count=1, samples=[C,]".toList = none := by
  decide

theorem test_text_encoding :
    (AsmLine.command .qBitrate).encoding.map (fun p => p.1) = ["0B".toList] := by decide

/-! ## Witnesses: the hypotheses of every obligation can be met -/

theorem inv_ready_20_1 : Inv (ready 20 1 1000 samplesA).blk where
  configured := by decide
  counting := by decide
  buffered := fun _ => by decide +kernel
  core := by decide
  noCore := by decide
  cause := by decide
  causeCode := by decide
  quiet := by decide
  canonical := by decide
  packetArea := by decide

theorem inv_ready_30_0 : Inv (ready 30 0 0 []).blk where
  configured := by decide
  counting := by decide
  buffered := fun _ => by decide
  core := by decide
  noCore := by decide
  cause := by decide
  causeCode := by decide
  quiet := by decide
  canonical := by decide
  packetArea := by decide

theorem inv_reset : Inv State.reset.blk where
  configured := by decide
  counting := by decide
  buffered := by decide
  core := by decide
  noCore := by decide
  cause := by decide
  causeCode := by decide
  quiet := by decide
  canonical := by decide
  packetArea := by decide

theorem inv_halted : Inv halted.blk where
  configured := by decide
  counting := by decide
  buffered := by decide
  core := by decide
  noCore := by decide
  cause := by decide
  causeCode := by decide
  quiet := by decide
  canonical := by decide
  packetArea := by decide

theorem witness_SampleWordsDecode :
    bundle.samples.length = bundle.len.toNat ∧ longName.name.length ≤ 255 := by decide +kernel

theorem witness_DecodeOfEncodeIsSame :
    WellFormed (.submit 1 80 samplesA) = true ∧ WellFormed (.submit 1 0 []) = true ∧
      WellFormed (.constructFmt 255 longName) = true := by decide +kernel

theorem witness_DecodedCommandReencodes :
    decode ⟨0x05, bundle⟩ = .ok (.submit 0xFFFFFFFF 80 samplesA) := by rfl

theorem witness_UnlistedFieldsIgnored_none :
    sameListedFields ((0x06 : Byte).extractLsb' 0 4) bundle Bundle.zero := by
  refine ⟨?_, ?_, ?_, ?_, ?_⟩ <;> intro h <;> exact absurd h (by decide)

theorem witness_UnlistedFieldsIgnored_some :
    sameListedFields ((0x01 : Byte).extractLsb' 0 4) bundle { Bundle.zero with pt := 3, fd := 30 } := by
  refine ⟨fun _ => ⟨rfl, rfl⟩, ?_, ?_, ?_, ?_⟩ <;> intro h <;> exact absurd h (by decide)

theorem witness_EveryLegalWordDecodes :
    Instr.word (.resolve longName) = 0x0D ∧
      (0x0D : Byte).extractLsb' 4 4 = 0#4 ∧ (0x0E : Byte).extractLsb' 0 4 ≠ 0xF#4 := by decide

theorem witness_IllegalWordFaults :
    (issued 0x15 (ready 20 0 0 [])).port = [.command ⟨0x15, bundle⟩] ∧
      (issued 0x15 (ready 20 0 0 [])).blk.life ≠ .faulted ∧
      (0x15 : Byte).extractLsb' 4 4 ≠ 0#4 ∧ (0x00 : Byte).extractLsb' 0 4 = 0x0#4 ∧
      (0x0F : Byte).extractLsb' 0 4 = 0xF#4 := by decide

theorem witness_StepRunsDecodedCommand :
    (issued 0x07 (ready 20 0 0 [])).port = .command ⟨0x07, bundle⟩ :: [] ∧
      (issued 0x07 (ready 20 0 0 [])).blk.life ≠ .faulted ∧ decode ⟨0x07, bundle⟩ = .ok .qRate :=
  ⟨rfl, by decide, rfl⟩

theorem witness_IdleKeepsAllState :
    (ready 20 1 5 samplesA).port = [] ∧ (ready 20 1 5 samplesA).blk.life ≠ .faulted := by decide

theorem witness_FaultedBlockHasNoStep_command :
    (issued 0x07 halted).blk.life = .faulted ∧
      (issued 0x07 halted).port = .command ⟨0x07, bundle⟩ :: [] := by decide

theorem witness_FaultedBlockHasNoStep_reset :
    (halted.setPort [.powerOnReset]).blk.life = .faulted ∧
      (halted.setPort [.powerOnReset]).port = .powerOnReset :: [] ∧
      step (halted.setPort [.powerOnReset]) = .next State.reset := ⟨rfl, rfl, rfl⟩

theorem witness_PowerOnResetEffect :
    (halted.setPort [.powerOnReset]).port = .powerOnReset :: [] ∧
      ((ready 30 0 0 []).setPort [.powerOnReset]).port = .powerOnReset :: [] := by decide

theorem witness_StepKeepsInvariants :
    Inv (issued 0x06 (ready 20 1 1000 samplesA)).blk ∧
      ∃ t, step (issued 0x06 (ready 20 1 1000 samplesA)) = .next t := ⟨inv_ready_20_1, _, rfl⟩

theorem witness_IssuedCommandCompletes :
    Inv (issued 0x05 (ready 20 1 1000 samplesA)).blk ∧
      (issued 0x05 (ready 20 1 1000 samplesA)).blk.life ≠ .faulted ∧
      (issued 0x05 (ready 20 1 1000 samplesA)).port = .command ⟨0x05, bundle⟩ :: [] ∧
      bundle.samples.length = bundle.len.toNat ∧ bundle.fmt.name.length ≤ 255 :=
  ⟨inv_ready_20_1, by decide, rfl, by decide, by decide⟩

theorem witness_ResolveAnswersResolver :
    State.reset.blk.life ≠ .faulted ∧ (ready 20 0 0 []).blk.life ≠ .faulted := by decide

theorem witness_CapabilityAnswersRange :
    State.reset.blk.life ≠ .faulted ∧ (ready 30 2 0 []).blk.life ≠ .faulted := by decide

theorem witness_ResolverUsersAgree :
    State.reset.blk.life = .unconstructed ∧ badFraming.frPresent = true ∧ badFraming.frWf = false ∧
      framing40.frPresent = true ∧ framing40.frVal.toNat ≠ 20 ∧ framing40.frVal.toNat ≠ 30 := by decide

theorem witness_ConstructCfgEffect :
    State.reset.blk.life = .unconstructed ∧ (ready 20 0 0 []).blk.life = .ready ∧
      (20 : Word16).toNat = 20 ∧ (30 : Word16).toNat = 30 ∧
      ¬ ((65535 : Word16).toNat = 20 ∨ (65535 : Word16).toNat = 30) := by decide

theorem witness_ConstructLegacyEffect :
    State.reset.blk.life = .unconstructed ∧ (ready 20 0 0 []).blk.life = .ready ∧
      (8000 : Word32).toNat = 8000 ∧ (1 : Byte).toNat = 1 ∧ (30 : Word16).toNat = 30 ∧
      ¬ (0 : Byte).toNat = 1 := by decide

theorem witness_ConstructFmtEffect :
    State.reset.blk.life = .unconstructed ∧ (ready 20 0 0 []).blk.life = .ready := by decide

theorem witness_ConstructionFormsEquivalent (h : Config.nameAccept [110] = true) :
    State.reset.blk.life = .unconstructed ∧
      exec (.resolve plainFmt) State.reset = .next (responded (.ok (.resFd 20)) State.reset) := by
  refine ⟨rfl, ?_⟩
  rw [exec_resolve, whenAlive_of_alive (by decide), resolveResponse,
    show resolve plainFmt = .cfg 20 by
      unfold resolve
      rw [if_neg (by decide), if_neg (by decide),
        if_neg (by rw [show plainFmt.name = [110] from rfl, h]; simp)]
      rfl]
  rfl

theorem witness_FailedConstructionHasNoEffect :
    constructs (.constructCfg 1 0) = true ∧
      exec (.constructCfg 1 0) State.reset = .next (responded .unsupported State.reset) ∧
      (responded .unsupported State.reset).resp = some .unsupported := ⟨rfl, rfl, rfl⟩

/-- A word with a reserved bit set, for every statement that says such a word faults. -/
theorem witness_malformedWordFaults :
    (issued 0x16 (ready 20 0 0 [])).port = .command ⟨0x16, bundle⟩ :: [] ∧
      (issued 0x16 (ready 20 0 0 [])).blk.life ≠ .faulted ∧
      (0x16 : Byte).extractLsb' 0 4 = 0x6#4 ∧ (0x16 : Byte).extractLsb' 4 4 ≠ 0#4 := by decide

/-- The longest codec name, for every statement that decodes a descriptor. -/
theorem witness_descriptor_decodes : { bundle with fmt := longName }.fmt.name.length ≤ 255 := by decide +kernel

theorem witness_DestroyEffect_later :
    ∃ t u, exec .destroy (ready 20 1 5 samplesA) = .next t ∧ constructs (.constructCfg 0 30) = true ∧
      exec (.constructCfg 0 30) t = .next u ∧ u.resp = some (.ok .plain) :=
  ⟨_, _, rfl, rfl, rfl, rfl⟩

theorem witness_DestroyEffect :
    (ready 20 1 5 samplesA).blk.life = .ready ∧ State.reset.blk.life = .unconstructed := by decide

theorem witness_NewInstanceStartsEmpty :
    constructs (.constructCfg 0 20) = true ∧ samplesA.length = 80 ∧
      ∃ t, exec (.constructCfg 0 20) State.reset = .next t ∧ t.resp = some (.ok .plain) :=
  ⟨rfl, rfl, _, rfl, rfl⟩

theorem witness_LifeDecidesAcceptance :
    State.reset.blk.life = .unconstructed ∧ (ready 20 0 0 []).blk.life = .ready ∧
      needsInstance .reset = true ∧ constructs (.constructCfg 0 20) = true ∧
      needsInstance .qName = false ∧ constructs (.submit 5 81 []) = false ∧
      exec (.submit 5 81 []) (ready 20 0 0 []) = .next (faultState 4 5 81 (ready 20 0 0 [])) ∧
      (faultState 4 5 81 (ready 20 0 0 [])).blk.life = .faulted :=
  ⟨rfl, rfl, rfl, rfl, rfl, rfl, rfl, rfl⟩

theorem witness_LifeDecidesAcceptance_completes :
    (ready 20 1 1000 samplesA).blk.life = .ready ∧ Inv (ready 20 1 1000 samplesA).blk ∧
      WellFormed (.submit 5 0 []) = true ∧ halted.blk.life = .faulted :=
  ⟨rfl, inv_ready_20_1, rfl, rfl⟩

theorem witness_SubmitBuffersSubFrame_first :
    (ready 20 0 0 []).blk.life = .ready ∧ (80 : Word16).toNat = 80 ∧ samplesA.length = 80 ∧
      (ready 20 0 0 []).blk.counter.toNat + 1 < target (ready 20 0 0 []).blk.cfgFd := by decide

theorem witness_SubmitBuffersSubFrame_second :
    (ready 30 1 10 samplesA).blk.life = .ready ∧
      (ready 30 1 10 samplesA).blk.counter.toNat + 1 < target (ready 30 1 10 samplesA).blk.cfgFd := by
  decide

theorem witness_SubmitBuffersSubFrame_inv : Inv (ready 30 0 0 []).blk := inv_ready_30_0

theorem witness_SubmitCompletesPacket :
    Inv (ready 20 1 1000 samplesA).blk ∧ (ready 20 1 1000 samplesA).blk.life = .ready ∧
      (80 : Word16).toNat = 80 ∧ samplesB.length = 80 ∧
      (ready 20 1 1000 samplesA).blk.counter.toNat + 1 = target (ready 20 1 1000 samplesA).blk.cfgFd :=
  ⟨inv_ready_20_1, rfl, rfl, rfl, rfl⟩

theorem witness_SubmitWrongLengthFaults :
    (ready 20 1 5 samplesA).blk.life = .ready ∧ (0 : Word16).toNat ≠ 80 ∧ (79 : Word16).toNat ≠ 80 ∧
      (81 : Word16).toNat ≠ 80 ∧ (65535 : Word16).toNat ≠ 80 ∧
      State.reset.blk.life = .unconstructed := by decide

theorem witness_SubmitFrame :
    samplesB.length = (80 : Word16).toNat ∧
      ∃ t, exec (.submit 90 80 samplesB) (ready 30 1 10 samplesA) = .next t ∧
        (ready 30 1 10 samplesA).blk.counter ≠ 0 ∧ t.blk.life ≠ .faulted :=
  ⟨rfl, _, rfl, by decide, by decide⟩

/-- The Codec Core is uninterpreted, so a packet is witnessed under its answer. -/
theorem witness_PacketFieldsAgree (c : Config.CodecState) (b : List Byte)
    (h : Config.codecEncode ⟨7⟩ (samplesA ++ samplesB) = .ok c b .active)
    (hl : b.length = Config.bPkt 20) :
    ∃ t, exec (.submit 1080 80 samplesB) (ready 20 1 1000 samplesA) = .next t ∧
      ∃ p, t.resp = some (.packet p) := by
  obtain ⟨t, h1, h2, _⟩ := test_submit_packet c b h hl
  exact ⟨t, h1, _, h2⟩

theorem witness_NoCommandEndsFull :
    Inv (issued 0x06 (ready 20 1 1000 samplesA)).blk ∧
      ∃ t, step (issued 0x06 (ready 20 1 1000 samplesA)) = .next t := ⟨inv_ready_20_1, _, rfl⟩

theorem witness_ResetEffect :
    (ready 20 1 5 samplesA).blk.life = .ready ∧ (ready 20 1 5 samplesA).blk.cs = some ⟨7⟩ ∧
      State.reset.blk.life = .unconstructed := by decide

theorem witness_RateAndChannelQueries :
    (ready 20 1 5 samplesA).blk.life = .ready ∧ State.reset.blk.life = .unconstructed := by decide

theorem witness_NextQueryReportsRemaining :
    (ready 30 0 0 []).blk.life = .ready ∧ (ready 30 0 0 []).blk.packetState = some .empty ∧
      Inv (ready 30 0 0 []).blk ∧ Inv (ready 20 1 1000 samplesA).blk ∧
      State.reset.blk.life = .unconstructed := ⟨rfl, rfl, inv_ready_30_0, inv_ready_20_1, rfl⟩

theorem witness_NextQueryReportsRemaining_after_reset :
    ∃ t, exec .reset (ready 30 2 0 []) = .next t ∧ t.blk.life = .ready := ⟨_, rfl, rfl⟩

theorem witness_MaxQueryReportsTarget :
    (ready 30 0 0 []).blk.life = .ready ∧ (ready 30 0 0 []).blk.cfgFd = 30 ∧
      (ready 20 1 0 []).blk.life = .ready ∧ (ready 20 1 0 []).blk.cfgFd = 20 ∧
      State.reset.blk.life = .unconstructed := by decide

theorem witness_BitrateQueryReportsFloor :
    (ready 30 2 0 []).blk.life = .ready ∧ State.reset.blk.life = .unconstructed := by decide

theorem witness_NameQueryReportsConstant :
    State.reset.blk.life ≠ .faulted ∧ (ready 20 0 0 []).blk.life ≠ .faulted := by decide

/-- V-Q16: queries before other commands. -/
theorem witness_QueriesChangeNothing :
    (ready 20 1 5 samplesA).blk.life = .ready ∧
      (∀ q ∈ [Instr.qNext, .qNext, .qBitrate, .qNext], isQuery q = true) := by decide

theorem witness_ArithmeticNeverWraps :
    Inv (ready 20 1 1000 samplesA).blk ∧ (ready 20 1 1000 samplesA).blk.life = .ready :=
  ⟨inv_ready_20_1, rfl⟩

theorem witness_FaultEntryRecordsCause_noInstance :
    ∃ t, exec .qMax State.reset = .next t ∧ t.blk.life = .faulted := ⟨_, rfl, rfl⟩

theorem witness_FaultEntryRecordsCause_alreadyConstructed :
    ∃ t, exec (.constructFmt 0 plainFmt) (ready 20 1 5 samplesA) = .next t ∧
      t.blk.life = .faulted := ⟨_, rfl, rfl⟩

/-- The Codec Core is uninterpreted, so its faults are witnessed under its answer (V-S10). -/
theorem witness_FaultEntryRecordsCause_codec
    (h : Config.codecEncode ⟨7⟩ (samplesA ++ samplesB) = .fail) :
    ∃ t, exec (.submit 1080 80 samplesB) (ready 20 1 1000 samplesA) = .next t ∧
      t.blk.life = .faulted ∧ Inv (ready 20 1 1000 samplesA).blk := by
  rw [submit_completes, h, finishPacket_fail]
  exact ⟨_, rfl, rfl, inv_ready_20_1⟩

/-- V-S11. -/
theorem witness_FaultEntryRecordsCause_outputSize (c : Config.CodecState)
    (h : Config.codecEncode ⟨7⟩ (samplesA ++ samplesB) = .ok c [] .none) :
    ∃ t, exec (.submit 1080 80 samplesB) (ready 20 1 1000 samplesA) = .next t ∧
      t.blk.life = .faulted := by
  rw [submit_completes, h, finishPacket_wrongSize (bytes := []) (s := appended) (Nat.ne_of_lt (bPkt_bounds 20).1)]
  exact ⟨_, rfl, rfl⟩

theorem witness_FaultEntryRecordsCause_length :
    ∃ t, exec (.submit 5 0 []) (ready 20 1 5 samplesA) = .next t ∧ t.blk.life = .faulted :=
  ⟨_, rfl, rfl⟩

theorem witness_StatusPortShowsFault :
    Inv (issued 0x01 (ready 20 1 1000 samplesA)).blk ∧
      (issued 0x01 (ready 20 1 1000 samplesA)).port = .command ⟨0x01, bundle⟩ :: [] ∧
      ∃ t, step (issued 0x01 (ready 20 1 1000 samplesA)) = .next t ∧ t.resp = none :=
  ⟨inv_ready_20_1, rfl, _, rfl, rfl⟩

theorem witness_ResponseFitsCommand :
    ∃ t, exec .qNext (ready 20 1 5 samplesA) = .next t ∧ t.blk.life ≠ .faulted :=
  ⟨_, rfl, by decide⟩

theorem witness_FaultRegistersHold :
    Inv (issued 0x07 (ready 20 1 1000 samplesA)).blk ∧
      ∃ t, step (issued 0x07 (ready 20 1 1000 samplesA)) = .next t := ⟨inv_ready_20_1, _, rfl⟩

theorem witness_FaultRegistersHold_reset :
    Inv (halted.setPort [.powerOnReset]).blk ∧
      ∃ t, step (halted.setPort [.powerOnReset]) = .next t := ⟨inv_halted, _, rfl⟩

theorem witness_ConfigurationIsImmutable :
    ∃ t, step (issued 0x06 (ready 20 1 5 samplesA)) = .next t ∧
      (issued 0x06 (ready 20 1 5 samplesA)).blk.life = .ready ∧ t.blk.life = .ready :=
  ⟨_, rfl, rfl, rfl⟩

theorem witness_LifeMovesAsStated_destroy :
    ∃ t, step (issued 0x04 (ready 20 1 5 samplesA)) = .next t ∧
      t.blk.life ≠ (issued 0x04 (ready 20 1 5 samplesA)).blk.life := ⟨_, rfl, by decide⟩

theorem witness_LifeMovesAsStated_construct :
    ∃ t, step (issued 0x01 State.reset) = .next t ∧ t.blk.life ≠ (issued 0x01 State.reset).blk.life :=
  ⟨_, rfl, by simp [issued, issueNext, State.reset, Block.powerOn]⟩

theorem witness_LifeMovesAsStated_powerOn :
    ∃ t, step (halted.setPort [.powerOnReset]) = .next t ∧
      t.blk.life ≠ (halted.setPort [.powerOnReset]).blk.life := ⟨_, rfl, by decide⟩

theorem witness_OnlySubmitWritesBuffer :
    (∃ t, exec .reset (ready 20 1 5 samplesA) = .next t) ∧
      ∀ ts len samples, Instr.reset ≠ .submit ts len samples := ⟨⟨_, rfl⟩, fun _ _ _ h => nomatch h⟩

theorem witness_CodecStateOwners :
    ∃ t, exec .destroy (ready 20 1 5 samplesA) = .next t ∧
      t.blk.cs ≠ (ready 20 1 5 samplesA).blk.cs := ⟨_, rfl, by decide⟩

theorem witness_CodecStateOwners_counter :
    ∃ t, exec .reset (ready 20 1 5 samplesA) = .next t ∧
      t.blk.counter ≠ (ready 20 1 5 samplesA).blk.counter := ⟨_, rfl, by decide⟩

/-- Two EMPTY instances with different leftovers in `TS0` and the buffer. -/
theorem witness_UnspecifiedValuesNeverRead :
    SameReadable (ready 20 0 1 samplesA).blk (ready 20 0 2 []).blk ∧
      (ready 20 0 1 samplesA).port = (ready 20 0 2 []).port ∧
      (ready 20 0 1 samplesA).resp = (ready 20 0 2 []).resp :=
  ⟨⟨rfl, rfl, rfl, rfl, fun _ => rfl, fun _ => rfl, fun _ => rfl, fun _ => rfl,
    fun _ h => absurd h (by decide), fun _ a h => absurd h (by simp [occ_eq, ready])⟩, rfl, rfl⟩

/-- Two sub-frames of a 30 ms instance. -/
theorem witness_SubmitCountLaw :
    Inv (ready 30 0 0 []).blk ∧ (ready 30 0 0 []).blk.packetState = some .empty ∧
      wholeSubFrames [(10, samplesA), (90, samplesB)] ∧
      ∃ t, performAll (submits [(10, samplesA), (90, samplesB)]) (ready 30 0 0 []) =
        some ([.noPacket, .noPacket], t) :=
  ⟨inv_ready_30_0, rfl, by unfold wholeSubFrames; decide, _, rfl⟩

theorem witness_PacketContentLaw :
    Inv (ready 30 0 0 []).blk ∧ (ready 30 0 0 []).blk.packetState = some .empty ∧
      (ready 30 0 0 []).blk.cs = some ⟨7⟩ ∧
      wholeSubFrames [(10, samplesA), (90, samplesB), (170, samplesA)] ∧
      [((10 : Word32), samplesA), (90, samplesB), (170, samplesA)].length =
        target (ready 30 0 0 []).blk.cfgFd :=
  ⟨inv_ready_30_0, rfl, rfl, by unfold wholeSubFrames; decide, rfl⟩

/-- V-R2, up to the packet. -/
theorem witness_ResetLaw :
    Inv (ready 20 1 1000 samplesA).blk ∧ (ready 20 1 1000 samplesA).blk.life = .ready ∧
      wholeSubFrames [(500, samplesB)] ∧
      ∃ t, performAll (.reset :: submits [(500, samplesB)]) (ready 20 1 1000 samplesA) =
        some ([.ok .plain, .noPacket], t) :=
  ⟨inv_ready_20_1, rfl, by unfold wholeSubFrames; decide, _, rfl⟩

theorem witness_FirstTimestampIsHeld :
    Inv (ready 30 0 0 []).blk ∧ (ready 30 0 0 []).blk.packetState = some .empty ∧
      wholeSubFrames [(10, samplesA)] ∧
      ∃ t, performAll (submits [(10, samplesA)]) (ready 30 0 0 []) = some ([.noPacket], t) ∧
        t.blk.ts0Valid = true :=
  ⟨inv_ready_30_0, rfl, by unfold wholeSubFrames; decide, _, rfl, rfl⟩

theorem witness_RunEndsWellFromStart :
    [Command.mk 0x01 bundle] ≠ [] ∧
      endsWell ([Command.mk 0x01 bundle] ++ [Command.mk 0x05 bundle]) :=
  ⟨by simp, _, rfl, rfl, by simp⟩

/-- Two blocks, one of them FAULTED: the other takes its step. -/
theorem witness_BlocksAreIndependent :
    [halted, issued 0x06 (ready 20 1 1000 samplesA)][1]? = some (issued 0x06 (ready 20 1 1000 samplesA)) ∧
      (0 : Nat) ≠ 1 ∧ (∀ b ∈ [halted, issued 0x06 (ready 20 1 1000 samplesA)], Inv b.blk) ∧
      (∃ t, step (issued 0x06 (ready 20 1 1000 samplesA)) = .next t) ∧
      ∃ cs, stepBlock 1 [halted, issued 0x06 (ready 20 1 1000 samplesA)] = some cs := by
  refine ⟨rfl, by decide, fun b hb => ?_, ⟨_, rfl⟩, _, rfl⟩
  rcases List.mem_cons.1 hb with rfl | hb
  · exact inv_halted
  · rw [List.mem_singleton.1 hb]; exact inv_ready_20_1

theorem witness_BlocksAreIndependent_completes :
    Inv (issued 0x06 (ready 20 1 1000 samplesA)).blk ∧
      (issued 0x06 (ready 20 1 1000 samplesA)).blk.life ≠ .faulted ∧
      (issued 0x06 (ready 20 1 1000 samplesA)).port = .command ⟨0x06, bundle⟩ :: [] ∧
      bundle.samples.length = bundle.len.toNat ∧ bundle.fmt.name.length ≤ 255 :=
  ⟨inv_ready_20_1, by decide, rfl, by decide, by decide⟩

end Sys2Proof.Tests
end

/-! PROOFS. One step of a block with a command on its port. -/

namespace Sys2Proof.Proofs

open Sys2Proof Sys2Proof.Machine

/-- Settles O7: `step` is `performNext` with `exec` (00_scope.md R2), which `step_command` evaluates on a
command that decodes (30_encoding.md R60). -/
theorem stepRunsDecodedCommand : Obligations.StepRunsDecodedCommand := by
  unfold Obligations.StepRunsDecodedCommand
  intro s c rest i hport hlive hdecode
  calc step s = performNext exec s := rfl
    _ = exec i (s.setPort rest) := step_command hport hlive hdecode

end Sys2Proof.Proofs

/-! PROOFS. The invariants between commands: each operation of the machine keeps them, so every step
does. -/

namespace Sys2Proof.Proofs

open Sys2Proof Sys2Proof.Machine Sys2Proof.Safety

/-! ## Numbers of a configured block -/

/-- A configured frame duration holds 2 or 3 sub-frames (00_scope.md R8). -/
theorem target_eq_two_or_three {fd : Word16} (hfd : fd = 20 ∨ fd = 30) :
    target fd = 2 ∨ target fd = 3 := by
  rcases hfd with rfl | rfl
  · exact .inl target_20
  · exact .inr target_30

/-- The target of a READY block within the invariants. -/
theorem inv_target {b : Block} (hinv : Inv b) (hready : b.life = .ready) :
    target b.cfgFd = 2 ∨ target b.cfgFd = 3 :=
  target_eq_two_or_three (hinv.configured hready)

/-- Within the invariants the append counts up without wrapping (42_queries.md R85). -/
theorem inv_counter_succ {b : Block} (hinv : Inv b) (hready : b.life = .ready) :
    (b.counter + 1).toNat = b.counter.toNat + 1 := by
  have hcount := hinv.counting hready
  rcases inv_target hinv hready with htarget | htarget <;> exact counter_succ (by omega)

/-- Within the invariants no block is in FULL (10_state.md R20). -/
theorem inv_packetState_ne_full {b : Block} (hinv : Inv b) : b.packetState ≠ some .full := by
  unfold Block.packetState
  split
  next hready =>
    have hcount := hinv.counting hready
    rw [if_pos hcount]
    split <;> simp
  next => simp

/-! ## Fault codes -/

theorem causeCode_ne_zero (cause : Cause) : cause.code ≠ 0 := by
  cases cause <;> decide

theorem causeCode_le_six (cause : Cause) : cause.code.toNat ≤ 6 := by
  cases cause <;> decide

/-! ## Each operation keeps the invariants -/

theorem inv_powerOn : Inv Block.powerOn where
  configured := nofun
  counting := nofun
  buffered := nofun
  core := nofun
  noCore _ := rfl
  cause := by simp
  causeCode := by simp
  quiet _ := ⟨rfl, rfl⟩
  canonical := powerOn_wf
  packetArea := by simp

/-- Fault entry asks only for the buffer's form: FAULTED frees every other register. -/
theorem inv_enterFault {s : State} (hwf : s.blk.buf.wf = true) (harea : ∀ c ∈ s.blk.buf, c.1 < 240)
    (cause : Cause) (info : Word16) (cw : Byte) : Inv (enterFault cause info cw s).blk where
  configured := nofun
  counting := nofun
  buffered := nofun
  core := nofun
  noCore := nofun
  cause := iff_of_false (causeCode_ne_zero cause) (by simp)
  causeCode := causeCode_le_six cause
  quiet := by simp
  canonical := hwf
  packetArea := harea

theorem inv_construct {s : State} (hinv : Inv s.blk) (hlife : s.blk.life = .unconstructed)
    {fd : Word16} (hfd : fd = 20 ∨ fd = 30) (pt : Byte) : Inv (construct fd pt s).blk where
  configured _ := hfd
  counting _ := by rcases target_eq_two_or_three hfd with h | h <;> simp [h]
  buffered _ a ha := by simp [occ_eq] at ha
  core _ := rfl
  noCore := nofun
  cause := by simpa [hlife] using hinv.cause
  causeCode := hinv.causeCode
  quiet _ := hinv.quiet (by simp [hlife])
  canonical := hinv.canonical
  packetArea := hinv.packetArea

theorem inv_endInstance {b : Block} (hinv : Inv b) (hready : b.life = .ready) :
    Inv (endInstance b) where
  configured := nofun
  counting := nofun
  buffered := nofun
  core := nofun
  noCore _ := rfl
  cause := by simpa [hready] using hinv.cause
  causeCode := hinv.causeCode
  quiet _ := hinv.quiet (by simp [hready])
  canonical := hinv.canonical
  packetArea := hinv.packetArea

theorem inv_resetPacketizer {b : Block} (hinv : Inv b) (hready : b.life = .ready) :
    Inv (resetPacketizer b) where
  configured := hinv.configured
  counting _ := by rcases inv_target hinv hready with h | h <;> simp [h]
  buffered _ a ha := by simp [occ_eq] at ha
  core _ := by simpa using hinv.core hready
  noCore := by simp [hready]
  cause := hinv.cause
  causeCode := hinv.causeCode
  quiet := hinv.quiet
  canonical := hinv.canonical
  packetArea := hinv.packetArea

/-! ## SUBMIT -/

section Append

variable {ts : Word32} {samples : List Sample} {b : Block}

/-- The append of a whole sub-frame ends at index 239 or below (20_memory.md R37). -/
theorem inv_occ_add_subFrame_le (hinv : Inv b) (hready : b.life = .ready) : b.occ + 80 ≤ 240 := by
  have hcount := hinv.counting hready
  rw [occ_eq]
  rcases inv_target hinv hready with h | h <;> omega

theorem appendSubFrame_wf (hinv : Inv b) (hready : b.life = .ready) (hlen : samples.length = 80) :
    (appendSubFrame ts samples b).buf.wf = true := by
  have hend := inv_occ_add_subFrame_le hinv hready
  exact memWrite_wf _ _ _ (by rw [hlen, Config.bufCap]; omega) hinv.canonical

theorem appendSubFrame_packetArea (hinv : Inv b) (hready : b.life = .ready)
    (hlen : samples.length = 80) : ∀ c ∈ (appendSubFrame ts samples b).buf, c.1 < 240 :=
  memWrite_below _ _ _ _ (by rw [hlen]; exact inv_occ_add_subFrame_le hinv hready) hinv.packetArea

/-- What the append leaves below the occupied length it found. -/
theorem read_appendSubFrame_below {a : Nat} (ha : a < b.counter.toNat * 80) :
    (appendSubFrame ts samples b).buf.read a = b.buf.read a :=
  read_memWrite_outside _ _ _ _ (.inl ha)

/-- Where the append puts its samples (41_packetizer.md R73). -/
theorem read_appendSubFrame_at {k : Nat} (hk : k < samples.length) :
    (appendSubFrame ts samples b).buf.read (b.counter.toNat * 80 + k) = samples[k]? :=
  read_memWrite_inside _ _ _ _ hk

/-- After the append every element below the new occupied length has been written. -/
theorem appendSubFrame_written (hinv : Inv b) (hready : b.life = .ready)
    (hlen : samples.length = 80) {a : Nat} (ha : a < b.counter.toNat * 80 + 80) :
    ((appendSubFrame ts samples b).buf.read a).isSome = true := by
  by_cases hbelow : a < b.counter.toNat * 80
  · rw [read_appendSubFrame_below hbelow]
    exact hinv.buffered hready a hbelow
  · obtain ⟨k, rfl⟩ := Nat.exists_eq_add_of_le (Nat.le_of_not_lt hbelow)
    have hk : k < samples.length := by omega
    rw [read_appendSubFrame_at hk, List.getElem?_eq_getElem hk]
    rfl

/-- A SUBMIT that stays below the target keeps the invariants (10_state.md R30 b). -/
theorem inv_appendSubFrame (hinv : Inv b) (hready : b.life = .ready) (hlen : samples.length = 80)
    (hbelow : (appendSubFrame ts samples b).counter.toNat < target b.cfgFd) :
    Inv (appendSubFrame ts samples b) where
  configured := hinv.configured
  counting _ := hbelow
  buffered _ a ha := by
    rw [occ_eq, appendSubFrame_counter, inv_counter_succ hinv hready] at ha
    exact appendSubFrame_written hinv hready hlen (by omega)
  core := hinv.core
  noCore := hinv.noCore
  cause := hinv.cause
  causeCode := hinv.causeCode
  quiet := hinv.quiet
  canonical := appendSubFrame_wf hinv hready hlen
  packetArea := appendSubFrame_packetArea hinv hready hlen

/-- A SUBMIT that emits a packet keeps the invariants: the block is EMPTY again. -/
theorem inv_clearPacket_append (hinv : Inv b) (hready : b.life = .ready)
    (hlen : samples.length = 80) (next : Config.CodecState) :
    Inv (clearPacket next (appendSubFrame ts samples b)) where
  configured := hinv.configured
  counting _ := by rcases inv_target hinv hready with h | h <;> simp [h]
  buffered _ a ha := by simp [occ_eq] at ha
  core _ := rfl
  noCore := by simp [hready]
  cause := hinv.cause
  causeCode := hinv.causeCode
  quiet := hinv.quiet
  canonical := appendSubFrame_wf (ts := ts) hinv hready hlen
  packetArea := appendSubFrame_packetArea (ts := ts) hinv hready hlen

/-- Whatever follows the append, the invariants hold after the SUBMIT. -/
theorem inv_submitEffect {s t : State} (hinv : Inv s.blk) (hready : s.blk.life = .ready)
    (hlen : samples.length = 80)
    (heffect : SubmitEffect (s.setBlk (appendSubFrame ts samples s.blk)) t) : Inv t.blk := by
  have hwf := appendSubFrame_wf (ts := ts) hinv hready hlen
  have harea := appendSubFrame_packetArea (ts := ts) hinv hready hlen
  cases heffect with
  | buffered hbelow => exact inv_appendSubFrame hinv hready hlen hbelow
  | codecFails => exact inv_enterFault hwf harea _ _ _
  | wrongSize => exact inv_enterFault hwf harea _ _ _
  | emitted => exact inv_clearPacket_append hinv hready hlen _

end Append

/-! ## Commands and steps -/

/-- A well-formed SUBMIT of length 80 holds 80 samples (30_encoding.md R49). -/
theorem wellFormed_submit_length {ts : Word32} {len : Word16} {samples : List Sample}
    (hwell : WellFormed (.submit ts len samples) = true) (hlen : len.toNat = 80) :
    samples.length = 80 := by
  simpa [WellFormed, samplesMatch, hlen] using hwell

/-- EVERY COMMAND the spec can express keeps the invariants. -/
theorem exec_keeps_inv {i : Instr} {s t : State} (hwell : WellFormed i = true) (hinv : Inv s.blk)
    (hexec : exec i s = .next t) : Inv t.blk := by
  have hfault := inv_enterFault hinv.canonical hinv.packetArea
  cases exec_effect hexec with
  | noInstance => exact hfault _ _ _
  | alreadyConstructed => exact hfault _ _ _
  | wrongLength => exact hfault _ _ _
  | constructed _ hlife fd pt hfd => exact inv_construct hinv hlife hfd pt
  | unsupported => exact hinv
  | reported => exact hinv
  | destroyed _ hready => exact inv_endInstance hinv hready
  | resetDone _ hready => exact inv_resetPacketizer hinv hready
  | submitted ts len samples hi hready hlen heffect =>
    subst hi
    exact inv_submitEffect hinv hready (wellFormed_submit_length hwell hlen) heffect

/-- Settles O13: each of the four things a step can be keeps the invariants; of a decoded command it is
known that its bundle is one the spec can express. -/
theorem stepKeepsInvariants : Obligations.StepKeepsInvariants := by
  unfold Obligations.StepKeepsInvariants
  intro s t hinv hstep
  cases step_effect hstep with
  | idle => exact hinv
  | powerOn => exact inv_powerOn
  | illegal => exact inv_enterFault hinv.canonical hinv.packetArea _ _ _
  | performed c rest i _ _ hdecode hexec =>
    obtain ⟨hwell, _, _⟩ := decode_ok hdecode
    exact exec_keeps_inv (s := s.setPort rest) hwell hinv hexec

/-- Settles O12: the base case of the invariants (70_reset_and_hazards.md R114). -/
theorem resetMeetsInvariants : Obligations.ResetMeetsInvariants := inv_powerOn

/-- Settles O31: FULL lies outside the invariants, which every step keeps. -/
theorem noCommandEndsFull : Obligations.NoCommandEndsFull := by
  unfold Obligations.NoCommandEndsFull
  intro s t hinv hstep
  exact inv_packetState_ne_full (stepKeepsInvariants s t hinv hstep)

/-- The bitrate of a configured block fits the 32 bits of `VALUE` (42_queries.md R85; log 7). -/
theorem bitrate_lt (fd : Word16) : bitrate fd < 2 ^ 32 := by
  have hbytes := (bPkt_bounds fd.toNat).2
  calc bitrate fd ≤ Config.bPkt fd.toNat * 8 * 1000 := Nat.div_le_self _ _
    _ < 2 ^ 32 := by omega

/-- Settles O39: a configured block's frame duration is 20 or 30, and its counter is below the target;
the bitrate fits because a packet has at most 65535 bytes (log 7). -/
theorem arithmeticNeverWraps : Obligations.ArithmeticNeverWraps := by
  unfold Obligations.ArithmeticNeverWraps
  intro s hinv hready
  have hcount : s.blk.counter.toNat < s.blk.cfgFd.toNat / 10 := hinv.counting hready
  have hfd : s.blk.cfgFd.toNat = 20 ∨ s.blk.cfgFd.toNat = 30 :=
    (hinv.configured hready).imp (fun h => by simp [h]) (fun h => by simp [h])
  have hquery : exec .qBitrate s = .next (responded (.ok (.value (BitVec.ofNat 32
      (bitrate s.blk.cfgFd)))) s) := by
    rw [exec_qBitrate, whenReady_of_ready hready, respondValue]
    rfl
  have hvalue : (BitVec.ofNat 32 (bitrate s.blk.cfgFd)).toNat =
      Config.bPkt s.blk.cfgFd.toNat * 8000 / s.blk.cfgFd.toNat := by
    rw [BitVec.toNat_ofNat, Nat.mod_eq_of_lt (bitrate_lt _), bitrate, Nat.mul_assoc]
  exact ⟨by omega, by omega, inv_counter_succ hinv hready, by omega, by omega, _, hquery, hvalue⟩

/-! ## Power-on reset -/

/-- Settles O11: the power-on column of 10_state.md R29, register by register. -/
theorem resetRegisterValues : Obligations.ResetRegisterValues :=
  ⟨Block.powerOn_life, Block.powerOn_cs, Block.powerOn_faultCause, Block.powerOn_faultOpc,
    Block.powerOn_faultInfo⟩

/-- A power-on reset on the port is performed in every state of the block. -/
theorem step_powerOn {s : State} {rest : List HostEvent} (hport : s.port = .powerOnReset :: rest) :
    step s = .next (applyPowerOn (s.setPort rest)) := by
  rw [step, performNext, hport]

/-- Settles O10: after power-on reset the block is `Block.powerOn`, whatever it was. -/
theorem powerOnResetEffect : Obligations.PowerOnResetEffect := by
  unfold Obligations.PowerOnResetEffect
  intro s rest hport
  exact ⟨_, step_powerOn hport, rfl, rfl, rfl, rfl, rfl,
    fun s' rest' hport' => ⟨_, step_powerOn hport', rfl⟩⟩

end Sys2Proof.Proofs

/-! PROOFS. What a rule reads of a block (10_state.md R29): related states have related steps. -/

namespace Sys2Proof.Proofs

open Sys2Proof Sys2Proof.Machine Sys2Proof.Safety

/-! ## Blocks that a rule cannot tell apart -/

/-- Where LIFE is not READY, a rule reads LIFE and the fault registers alone. -/
theorem sameReadable_of_not_ready {b c : Block} (hnot : b.life ≠ .ready) (life : b.life = c.life)
    (faultCause : b.faultCause = c.faultCause) (faultOpc : b.faultOpc = c.faultOpc)
    (faultInfo : b.faultInfo = c.faultInfo) : SameReadable b c where
  life := life
  faultCause := faultCause
  faultOpc := faultOpc
  faultInfo := faultInfo
  cfgFd h := absurd h hnot
  cfgPt h := absurd h hnot
  counter h := absurd h hnot
  cs h := absurd h hnot
  ts0 h := absurd h hnot
  buf h := absurd h hnot

/-- Where nothing is counted, a rule reads neither TS0 nor the buffer. -/
theorem sameReadable_of_counter_zero {b c : Block} (hb : b.counter = 0) (hc : c.counter = 0)
    (life : b.life = c.life) (faultCause : b.faultCause = c.faultCause)
    (faultOpc : b.faultOpc = c.faultOpc) (faultInfo : b.faultInfo = c.faultInfo)
    (cfgFd : b.cfgFd = c.cfgFd) (cfgPt : b.cfgPt = c.cfgPt) (cs : b.cs = c.cs) :
    SameReadable b c where
  life := life
  faultCause := faultCause
  faultOpc := faultOpc
  faultInfo := faultInfo
  cfgFd _ := cfgFd
  cfgPt _ := cfgPt
  counter _ := hb.trans hc.symm
  cs _ := cs
  ts0 _ h := by simp [Block.ts0Valid, hb] at h
  buf _ a ha := by simp [occ_eq, hb] at ha

theorem sameReadable_refl (b : Block) : SameReadable b b where
  life := rfl
  faultCause := rfl
  faultOpc := rfl
  faultInfo := rfl
  cfgFd _ := rfl
  cfgPt _ := rfl
  counter _ := rfl
  cs _ := rfl
  ts0 _ _ := rfl
  buf _ _ _ := rfl

/-- Fault entry writes all that a rule may read of a FAULTED block. -/
theorem sameReadable_enterFault (cause : Cause) (info : Word16) (cw : Byte) (s t : State) :
    SameReadable (enterFault cause info cw s).blk (enterFault cause info cw t).blk :=
  sameReadable_of_not_ready (by simp) rfl rfl rfl rfl

/-! ## The operations of the machine -/

/-- Two states that differ in unspecified values alone; the last response, which every command
overwrites, is left out. -/
structure SameView (s t : State) : Prop where
  blk : SameReadable s.blk t.blk
  port : s.port = t.port

theorem sameOutcome_raise {s t : State} (hport : s.port = t.port) (cause : Cause) (info : Word16)
    (cw : Byte) : sameOutcome (raise cause info cw s) (raise cause info cw t) :=
  ⟨sameReadable_enterFault cause info cw s t, hport, rfl⟩

theorem sameOutcome_respond {s t : State} (hview : SameView s t) (r : Response) :
    sameOutcome (respond r s) (respond r t) :=
  ⟨hview.blk, hview.port, rfl⟩

section Checks

variable {s t : State} {k k' : State → Result} (hview : SameView s t)
include hview

theorem sameOutcome_whenAlive (hk : sameOutcome (k s) (k' t)) :
    sameOutcome (whenAlive s k) (whenAlive t k') := by
  have hlife := hview.blk.life
  by_cases hs : s.blk.life = .faulted
  · rw [whenAlive_of_faulted hs, whenAlive_of_faulted (hlife ▸ hs)]
    exact rfl
  · rwa [whenAlive_of_alive hs, whenAlive_of_alive (hlife ▸ hs)]

theorem sameOutcome_whenReady (cw : Byte)
    (hk : s.blk.life = .ready → sameOutcome (k s) (k' t)) :
    sameOutcome (whenReady cw s k) (whenReady cw t k') := by
  have hlife := hview.blk.life
  cases hs : s.blk.life with
  | faulted =>
    rw [whenReady_of_faulted hs, whenReady_of_faulted (hlife ▸ hs)]
    exact rfl
  | unconstructed =>
    rw [whenReady_of_unconstructed hs, whenReady_of_unconstructed (hlife ▸ hs)]
    exact sameOutcome_raise hview.port _ _ _
  | ready =>
    rw [whenReady_of_ready hs, whenReady_of_ready (hlife ▸ hs)]
    exact hk hs

theorem sameOutcome_whenUnconstructed (cw : Byte)
    (hk : s.blk.life = .unconstructed → sameOutcome (k s) (k' t)) :
    sameOutcome (whenUnconstructed cw s k) (whenUnconstructed cw t k') := by
  have hlife := hview.blk.life
  cases hs : s.blk.life with
  | faulted =>
    rw [whenUnconstructed_of_faulted hs, whenUnconstructed_of_faulted (hlife ▸ hs)]
    exact rfl
  | unconstructed =>
    rw [whenUnconstructed_of_unconstructed hs, whenUnconstructed_of_unconstructed (hlife ▸ hs)]
    exact hk hs
  | ready =>
    rw [whenUnconstructed_of_ready hs, whenUnconstructed_of_ready (hlife ▸ hs)]
    exact sameOutcome_raise hview.port _ _ _

/-- Construction writes the configuration, the counter and the core; TS0 and the buffer are then
read by no rule. -/
theorem sameOutcome_constructIf (valid : Bool) (fd : Word16) (pt : Byte) :
    sameOutcome (constructIf valid fd pt s) (constructIf valid fd pt t) := by
  cases valid with
  | false => exact sameOutcome_respond hview _
  | true =>
    exact ⟨sameReadable_of_counter_zero rfl rfl rfl hview.blk.faultCause hview.blk.faultOpc
      hview.blk.faultInfo rfl rfl rfl, hview.port, rfl⟩

theorem sameView_endInstance :
    SameView (s.setBlk (endInstance s.blk)) (t.setBlk (endInstance t.blk)) where
  blk := sameReadable_of_not_ready (by simp) rfl hview.blk.faultCause hview.blk.faultOpc
    hview.blk.faultInfo
  port := hview.port

theorem sameView_resetPacketizer (hready : s.blk.life = .ready) :
    SameView (s.setBlk (resetPacketizer s.blk)) (t.setBlk (resetPacketizer t.blk)) where
  blk := sameReadable_of_counter_zero rfl rfl hview.blk.life hview.blk.faultCause
    hview.blk.faultOpc hview.blk.faultInfo (hview.blk.cfgFd hready) (hview.blk.cfgPt hready)
    (by simp [hview.blk.cs hready])
  port := hview.port

end Checks

/-! ## SUBMIT -/

/-- The append counts at most one sub-frame more, whether or not the counter wraps. -/
theorem counter_succ_toNat_le (c : BitVec 2) : (c + 1).toNat ≤ c.toNat + 1 := by
  rw [BitVec.toNat_add]
  exact Nat.mod_le _ _

section Submit

variable {ts : Word32} {samples : List Sample} {s t : State} (hview : SameView s t)
  (hready : s.blk.life = .ready)
include hview hready

/-- The append records one timestamp: the command's in EMPTY, and otherwise the valid TS0. -/
theorem appendSubFrame_ts0_congr :
    (appendSubFrame ts samples s.blk).ts0 = (appendSubFrame ts samples t.blk).ts0 := by
  simp only [appendSubFrame_ts0, ← hview.blk.counter hready]
  split
  · rfl
  next hcounter => exact hview.blk.ts0 hready (by simpa [Block.ts0Valid] using hcounter)

/-- After the append of a whole sub-frame the occupied elements are those that were occupied before,
which agree, and those the command wrote. -/
theorem appendSubFrame_read_congr (hlen : samples.length = 80) {a : Nat}
    (ha : a < (appendSubFrame ts samples s.blk).occ) :
    (appendSubFrame ts samples s.blk).buf.read a = (appendSubFrame ts samples t.blk).buf.read a := by
  have hcounter := hview.blk.counter hready
  by_cases hbelow : a < s.blk.counter.toNat * 80
  · rw [read_appendSubFrame_below hbelow, read_appendSubFrame_below (hcounter ▸ hbelow)]
    exact hview.blk.buf hready a hbelow
  · obtain ⟨k, rfl⟩ := Nat.exists_eq_add_of_le (Nat.le_of_not_lt hbelow)
    have hk : k < samples.length := by
      have hsucc := counter_succ_toNat_le s.blk.counter
      rw [occ_eq, appendSubFrame_counter] at ha
      omega
    rw [read_appendSubFrame_at hk, hcounter, read_appendSubFrame_at hk]

omit hready in
theorem sameView_appendSubFrame (hlen : samples.length = 80) :
    SameView (s.setBlk (appendSubFrame ts samples s.blk))
      (t.setBlk (appendSubFrame ts samples t.blk)) where
  blk :=
    { life := hview.blk.life
      faultCause := hview.blk.faultCause
      faultOpc := hview.blk.faultOpc
      faultInfo := hview.blk.faultInfo
      cfgFd := hview.blk.cfgFd
      cfgPt := hview.blk.cfgPt
      counter := fun h => by simp [hview.blk.counter h]
      cs := hview.blk.cs
      ts0 := fun h _ => appendSubFrame_ts0_congr hview h
      buf := fun h _ ha => appendSubFrame_read_congr hview h hlen ha }
  port := hview.port

/-- The same answer of the Codec Core is met with the same fault or the same packet. -/
theorem sameOutcome_finishPacket (hts0 : s.blk.ts0 = t.blk.ts0) (answer : Config.CodecResult) :
    sameOutcome (finishPacket answer s) (finishPacket answer t) := by
  have hfd := hview.blk.cfgFd hready
  cases answer with
  | fail => exact sameOutcome_raise hview.port _ _ _
  | ok next bytes speech =>
    by_cases hsize : bytes.length = requiredOutputSize s.blk.cfgFd
    · rw [finishPacket_emits hsize, finishPacket_emits (hfd ▸ hsize), hts0, hfd,
        hview.blk.cfgPt hready]
      exact ⟨sameReadable_of_counter_zero rfl rfl hview.blk.life hview.blk.faultCause
        hview.blk.faultOpc hview.blk.faultInfo hfd (hview.blk.cfgPt hready) rfl, hview.port, rfl⟩
    · rw [finishPacket_wrongSize hsize, finishPacket_wrongSize (hfd ▸ hsize)]
      exact sameOutcome_raise hview.port _ _ _

/-- At the target the packet that is read is occupied, so the Codec Core is given the same state and
the same samples. -/
theorem sameOutcome_encodePacket (hts0 : s.blk.ts0 = t.blk.ts0)
    (hfull : ¬ s.blk.counter.toNat < target s.blk.cfgFd) :
    sameOutcome (encodePacket s) (encodePacket t) := by
  have hread : memRead s.blk.buf 0 (pktSamples s.blk.cfgFd) =
      memRead t.blk.buf 0 (pktSamples s.blk.cfgFd) := by
    refine memRead_congr _ _ _ _ fun k hk => hview.blk.buf hready _ ?_
    rw [pktSamples_eq] at hk
    rw [occ_eq]
    omega
  unfold encodePacket
  rw [← hview.blk.cfgFd hready, ← hread, ← hview.blk.cs hready]
  split
  · exact rfl
  · split
    · exact rfl
    · exact sameOutcome_finishPacket hview hready hts0 _

theorem sameOutcome_countSubFrame (hts0 : s.blk.ts0 = t.blk.ts0) :
    sameOutcome (countSubFrame s) (countSubFrame t) := by
  unfold countSubFrame
  rw [← hview.blk.counter hready, ← hview.blk.cfgFd hready]
  split
  · exact sameOutcome_respond hview _
  next hfull => exact sameOutcome_encodePacket hview hready hts0 hfull

end Submit

/-! ## Commands and steps -/

/-- EVERY COMMAND the spec can express does the same to two states that differ in unspecified values
alone. -/
theorem sameOutcome_exec {i : Instr} {s t : State} (hwell : WellFormed i = true)
    (hview : SameView s t) : sameOutcome (exec i s) (exec i t) := by
  cases i with
  | constructCfg | constructLegacy =>
    exact sameOutcome_whenUnconstructed hview _ fun _ => sameOutcome_constructIf hview _ _ _
  | constructFmt pt fmt =>
    rw [exec_constructFmt, exec_constructFmt]
    refine sameOutcome_whenUnconstructed hview _ fun _ => ?_
    cases resolve fmt with
    | unsupported => exact sameOutcome_constructIf hview _ _ _
    | cfg fd => exact sameOutcome_constructIf hview _ _ _
  | destroy =>
    rw [exec_destroy, exec_destroy]
    exact sameOutcome_whenReady hview _ fun _ =>
      sameOutcome_respond (sameView_endInstance hview) _
  | submit ts len samples =>
    rw [exec_submit, exec_submit, execSubmit, execSubmit]
    refine sameOutcome_whenReady hview _ fun hready => ?_
    by_cases hlen : len.toNat ≠ Config.sfSamples
    · rw [if_pos hlen, if_pos hlen]
      exact sameOutcome_raise hview.port _ _ _
    · have hsamples := wellFormed_submit_length hwell (not_not.1 hlen)
      rw [if_neg hlen, if_neg hlen]
      exact sameOutcome_countSubFrame (sameView_appendSubFrame hview hsamples) hready
        (appendSubFrame_ts0_congr hview hready)
  | reset =>
    rw [exec_reset, exec_reset]
    exact sameOutcome_whenReady hview _ fun hready =>
      sameOutcome_respond (sameView_resetPacketizer hview hready) _
  | qRate | qChannels =>
    exact sameOutcome_whenReady hview _ fun _ => sameOutcome_respond hview _
  | qNext =>
    rw [exec_qNext, exec_qNext]
    refine sameOutcome_whenReady hview _ fun hready => ?_
    rw [hview.blk.cfgFd hready, hview.blk.counter hready]
    exact sameOutcome_respond hview _
  | qMax =>
    rw [exec_qMax, exec_qMax]
    refine sameOutcome_whenReady hview _ fun hready => ?_
    rw [hview.blk.cfgFd hready]
    exact sameOutcome_respond hview _
  | qBitrate =>
    rw [exec_qBitrate, exec_qBitrate]
    refine sameOutcome_whenReady hview _ fun hready => ?_
    rw [hview.blk.cfgFd hready]
    exact sameOutcome_respond hview _
  | qName | resolve | capability =>
    exact sameOutcome_whenAlive hview (sameOutcome_respond hview _)

/-- A FAULTED block performs no command, whatever its word (60_exceptions.md R104). -/
theorem performCommand_of_faulted {run : Instr → State → Result} {c : Command} {s : State}
    (hlife : s.blk.life = .faulted) : performCommand run c s = .fault .blockFaulted := by
  simp [performCommand, hlife]

/-- A command whose word or bundle is rejected (30_encoding.md R59, R60). -/
theorem performCommand_of_error {run : Instr → State → Result} {c : Command} {s : State}
    {e : DecodeError} (hlife : s.blk.life ≠ .faulted) (hdecode : decode c = .error e) :
    performCommand run c s =
      if e.illegalWord then raiseIllegal c.word s else .refused .malformedBundle := by
  cases hs : s.blk.life with
  | faulted => contradiction
  | unconstructed | ready => simp [performCommand, hs, hdecode]

/-- A command that is decoded is performed. -/
theorem performCommand_of_ok {run : Instr → State → Result} {c : Command} {s : State} {i : Instr}
    (hlife : s.blk.life ≠ .faulted) (hdecode : decode c = .ok i) :
    performCommand run c s = run i s := by
  cases hs : s.blk.life with
  | faulted => contradiction
  | unconstructed | ready => simp [performCommand, hs, hdecode]

/-- A command taken from the port, whether or not its word spells a command. -/
theorem sameOutcome_performCommand {s t : State} (hview : SameView s t) (c : Command) :
    sameOutcome (performCommand exec c s) (performCommand exec c t) := by
  have hlife := hview.blk.life
  by_cases hs : s.blk.life = .faulted
  · rw [performCommand_of_faulted hs, performCommand_of_faulted (hlife ▸ hs)]
    exact rfl
  · cases hdecode : decode c with
    | ok i =>
      obtain ⟨hwell, _, _⟩ := decode_ok hdecode
      rw [performCommand_of_ok hs hdecode, performCommand_of_ok (hlife ▸ hs) hdecode]
      exact sameOutcome_exec hwell hview
    | error e =>
      rw [performCommand_of_error hs hdecode, performCommand_of_error (hlife ▸ hs) hdecode]
      split
      · exact sameOutcome_raise hview.port _ _ _
      · exact rfl

/-- An idle step changes nothing, so here the last response must agree too. -/
theorem sameOutcome_idle {s t : State} (hview : SameView s t) (hresp : s.resp = t.resp) :
    sameOutcome (Sys2Proof.Machine.idle s) (Sys2Proof.Machine.idle t) := by
  unfold Sys2Proof.Machine.idle
  rw [← hview.blk.life]
  split
  · exact rfl
  · exact ⟨hview.blk, hview.port, hresp⟩
  · exact ⟨hview.blk, hview.port, hresp⟩

/-- Settles O48: the two states take the same event off the port, and each of the three kinds of event
keeps `SameReadable` with the same outcome. -/
theorem unspecifiedValuesNeverRead : Obligations.UnspecifiedValuesNeverRead := by
  unfold Obligations.UnspecifiedValuesNeverRead
  intro s t hblk hport hresp
  unfold step performNext
  rw [← hport]
  split
  next => exact sameOutcome_idle ⟨hblk, hport⟩ hresp
  next => exact ⟨sameReadable_refl _, rfl, rfl⟩
  next c rest _ =>
    exact sameOutcome_performCommand (s := s.setPort rest) (t := t.setPort rest) ⟨hblk, rfl⟩ c

end Sys2Proof.Proofs

/-! PROOFS. What one command does to each register, and to the response. -/

namespace Sys2Proof.Proofs

open Sys2Proof Sys2Proof.Machine Sys2Proof.Safety

/-! ## Fault entry, or a response -/

/-- The command of opcode `opc` has entered a fault (60_exceptions.md R103). -/
structure FaultEntered (opc : BitVec 4) (t : State) : Prop where
  life : t.blk.life = .faulted
  resp : t.resp = none
  faultOpc : t.blk.faultOpc = opc
  faultCause : t.blk.faultCause ≠ 0

/-- The command has responded from `s`, and the fault registers are as they were. -/
structure Responded (s t : State) : Prop where
  life : t.blk.life ≠ .faulted
  resp : t.resp ≠ none
  faultCause : t.blk.faultCause = s.blk.faultCause
  faultOpc : t.blk.faultOpc = s.blk.faultOpc
  faultInfo : t.blk.faultInfo = s.blk.faultInfo

theorem faultEntered_enterFault (cause : Cause) (info : Word16) (cw : Byte) (s : State) :
    FaultEntered (opcField cw) (enterFault cause info cw s) :=
  ⟨rfl, rfl, rfl, causeCode_ne_zero cause⟩

/-- The fault of a decoded command carries the command's own opcode. -/
theorem faultEntered_of_word {i : Instr} (cause : Cause) (info : Word16) (s : State) :
    FaultEntered i.opc (enterFault cause info i.word s) :=
  i.opcField_word ▸ faultEntered_enterFault cause info i.word s

/-- EVERY COMMAND either enters a fault or responds. -/
theorem exec_faults_or_responds {i : Instr} {s t : State} (hexec : exec i s = .next t) :
    FaultEntered i.opc t ∨ Responded s t := by
  cases exec_effect hexec with
  | noInstance | alreadyConstructed | wrongLength => exact .inl (faultEntered_of_word _ _ _)
  | constructed | destroyed => exact .inr ⟨by simp, by simp, rfl, rfl, rfl⟩
  | resetDone _ hready => exact .inr ⟨by simp [hready], by simp, rfl, rfl, rfl⟩
  | unsupported _ hlife => exact .inr ⟨by simp [hlife], by simp, rfl, rfl, rfl⟩
  | reported _ hlife => exact .inr ⟨by simpa using hlife, by simp, rfl, rfl, rfl⟩
  | submitted ts len samples hi hready _ heffect =>
    subst hi
    cases heffect with
    | codecFails | wrongSize => exact .inl (faultEntered_enterFault _ _ 0x05 _)
    | buffered | emitted => exact .inr ⟨by simp [hready], by simp, rfl, rfl, rfl⟩

/-- So does every step with a command; one with an illegal word enters a fault. -/
theorem step_command_faults_or_responds {s t : State} {c : Command} {rest : List HostEvent}
    (hport : s.port = .command c :: rest) (hstep : step s = .next t) :
    FaultEntered (opcField c.word) t ∨ Responded s t := by
  cases step_effect hstep with
  | idle hport' => simp [hport'] at hport
  | powerOn _ hport' => simp [hport'] at hport
  | illegal c' rest' hport' =>
    obtain ⟨rfl, rfl⟩ : c' = c ∧ rest' = rest := by simpa [hport'] using hport
    exact .inl (faultEntered_enterFault _ _ _ _)
  | performed c' rest' i hport' _ hdecode hexec =>
    obtain ⟨rfl, rfl⟩ : c' = c ∧ rest' = rest := by simpa [hport'] using hport
    obtain ⟨_, hword, _⟩ := decode_ok hdecode
    rw [← hword, Instr.opcField_word]
    exact (exec_faults_or_responds hexec).imp_right fun h =>
      ⟨h.life, h.resp, h.faultCause, h.faultOpc, h.faultInfo⟩

/-! ## The status port -/

theorem statusPort_life_faulted_iff (s : State) :
    (statusPort s).life = 0b10#2 ↔ s.blk.life = .faulted := by
  show s.blk.life.code = 0b10#2 ↔ s.blk.life = .faulted
  cases s.blk.life <;> decide

theorem statusPort_life_ne_reserved (s : State) : (statusPort s).life ≠ 0b11#2 := by
  show s.blk.life.code ≠ 0b11#2
  cases s.blk.life <;> decide

/-- The line is set exactly when a cause is recorded (60_exceptions.md R99). -/
theorem faultLine_iff {s : State} (hinv : Inv s.blk) :
    faultLine s = true ↔ (statusPort s).faultCause ≠ 0 :=
  calc faultLine s = true ↔ s.blk.life = .faulted := beq_iff_eq
    _ ↔ s.blk.faultCause ≠ 0 := by rw [ne_eq, hinv.cause, not_not]

/-- Settles O42: a command enters a fault, which leaves no response and its own opcode, or responds and
is not FAULTED; the line follows from the invariant of the next state. -/
theorem statusPortShowsFault : Obligations.StatusPortShowsFault := by
  unfold Obligations.StatusPortShowsFault
  intro s t c rest hinv hport hstep
  have hline := faultLine_iff (stepKeepsInvariants s t hinv hstep)
  rw [statusPort_life_faulted_iff]
  rcases step_command_faults_or_responds hport hstep with hfault | hresp
  · exact ⟨iff_of_true hfault.resp hfault.life, fun _ => hfault.faultOpc, hline,
      statusPort_life_ne_reserved t⟩
  · exact ⟨iff_of_false hresp.resp hresp.life, fun h => absurd h hresp.resp, hline,
      statusPort_life_ne_reserved t⟩

/-- Settles O43: a step is a power-on reset, idles, or performs a command, and a block that idles or
performs a command is not FAULTED, so it has no cause recorded. -/
theorem faultRegistersHold : Obligations.FaultRegistersHold := by
  unfold Obligations.FaultRegistersHold
  intro s t hinv hstep
  cases step_effect hstep with
  | powerOn rest hport => exact .inl ⟨rest, hport⟩
  | idle _ hlife => exact .inr ⟨hinv.cause.2 hlife, .inr ⟨rfl, rfl, rfl⟩⟩
  | illegal _ _ _ hlife => exact .inr ⟨hinv.cause.2 hlife, .inl rfl⟩
  | performed c rest i _ hlife _ hexec =>
    refine .inr ⟨hinv.cause.2 hlife, ?_⟩
    rcases exec_faults_or_responds hexec with hfault | hresp
    · exact .inl hfault.life
    · exact .inr ⟨hresp.faultCause, hresp.faultOpc, hresp.faultInfo⟩

/-! ## LIFE and the configuration -/

/-- How one command moves LIFE. -/
theorem exec_life {i : Instr} {s t : State} (hexec : exec i s = .next t) :
    t.blk.life = s.blk.life ∨ t.blk.life = .faulted ∨
    (constructs i = true ∧ s.blk.life = .unconstructed ∧ t.blk.life = .ready ∧
      t.resp = some (.ok .plain)) ∨
    (i = .destroy ∧ s.blk.life = .ready ∧ t.blk.life = .unconstructed ∧
      t.resp = some (.ok .plain)) := by
  cases exec_effect hexec with
  | noInstance | alreadyConstructed | wrongLength => exact .inr (.inl rfl)
  | unsupported | reported | resetDone => exact .inl rfl
  | constructed hi hlife => exact .inr (.inr (.inl ⟨hi, hlife, rfl, rfl⟩))
  | destroyed hi hready => exact .inr (.inr (.inr ⟨hi, hready, rfl, rfl⟩))
  | submitted _ _ _ _ _ _ heffect =>
    cases heffect with
    | codecFails | wrongSize => exact .inr (.inl rfl)
    | buffered | emitted => exact .inl rfl

/-- Settles O45: an idle step and an illegal word leave the two cases of `exec_life` to a decoded
command. -/
theorem lifeMovesAsStated : Obligations.LifeMovesAsStated := by
  unfold Obligations.LifeMovesAsStated
  intro s t hstep hmoved
  cases step_effect hstep with
  | idle => exact absurd rfl hmoved
  | powerOn rest hport => exact .inl ⟨⟨rest, hport⟩, rfl⟩
  | illegal c rest hport hlife =>
    exact .inr ⟨c, rest, hport, hlife, .inl ⟨rfl, rfl, causeCode_ne_zero .illegalCommand⟩⟩
  | performed c rest i hport hlife hdecode hexec =>
    refine .inr ⟨c, rest, hport, hlife, ?_⟩
    rcases exec_life hexec with hkept | hfaulted | hconstructed | ⟨rfl, hdestroyed⟩
    · exact absurd hkept hmoved
    · rcases exec_faults_or_responds hexec with hfault | hresp
      · exact .inl ⟨hfault.life, hfault.resp, hfault.faultCause⟩
      · exact absurd hfaulted hresp.life
    · exact .inr (.inl ⟨i, hdecode, hconstructed⟩)
    · exact .inr (.inr ⟨hdecode, hdestroyed⟩)

/-- In READY no command writes the configuration. -/
theorem exec_keeps_configuration {i : Instr} {s t : State} (hready : s.blk.life = .ready)
    (hexec : exec i s = .next t) : t.blk.cfgFd = s.blk.cfgFd ∧ t.blk.cfgPt = s.blk.cfgPt := by
  cases exec_effect hexec with
  | constructed _ hlife => simp [hready] at hlife
  | noInstance | alreadyConstructed | wrongLength | unsupported | reported | destroyed | resetDone =>
    exact ⟨rfl, rfl⟩
  | submitted _ _ _ _ _ _ heffect => cases heffect <;> exact ⟨rfl, rfl⟩

/-- Settles O44: only a construction writes the configuration, and it needs UNCONSTRUCTED. -/
theorem configurationIsImmutable : Obligations.ConfigurationIsImmutable := by
  unfold Obligations.ConfigurationIsImmutable
  intro s t hstep hready hready'
  cases step_effect hstep with
  | idle => exact ⟨rfl, rfl⟩
  | powerOn => simp at hready'
  | illegal => exact ⟨rfl, rfl⟩
  | performed c rest i _ _ _ hexec =>
    exact exec_keeps_configuration (s := s.setPort rest) hready hexec

/-! ## Which command writes which register -/

/-- Settles O46: `memWrite` and the write of TS0 are in the append alone. -/
theorem onlySubmitWritesBuffer : Obligations.OnlySubmitWritesBuffer := by
  unfold Obligations.OnlySubmitWritesBuffer
  intro i s t hexec hother
  cases exec_effect hexec with
  | submitted ts len samples hi => exact absurd hi (hother ts len samples)
  | noInstance | alreadyConstructed | wrongLength | constructed | unsupported | reported
  | destroyed | resetDone => exact ⟨fun _ => rfl, rfl⟩

/-- Settles O47: of the courses a command can take, only a construction, DESTROY, RESET and the
emission of a packet write CS, and DESTROY alone of these leaves COUNTER. -/
theorem codecStateOwners : Obligations.CodecStateOwners := by
  unfold Obligations.CodecStateOwners
  intro i s t hexec
  cases exec_effect hexec with
  | noInstance | alreadyConstructed | wrongLength | unsupported | reported =>
    exact ⟨fun h => absurd rfl h, fun h => absurd rfl h⟩
  | constructed hi =>
    exact ⟨fun _ => .inr (.inr (.inr ⟨hi, rfl⟩)), fun _ => .inr (.inr ⟨hi, rfl⟩)⟩
  | destroyed hi => exact ⟨fun _ => .inr (.inr (.inl hi)), fun h => absurd rfl h⟩
  | resetDone hi => exact ⟨fun _ => .inr (.inl hi), fun _ => .inr (.inl hi)⟩
  | submitted ts len samples hi _ _ heffect =>
    refine ⟨fun hcs => ?_, fun _ => .inl ⟨ts, len, samples, hi⟩⟩
    cases heffect with
    | buffered | codecFails | wrongSize => exact absurd rfl hcs
    | emitted => exact .inl ⟨_, rfl⟩

end Sys2Proof.Proofs

/-! PROOFS. SUBMIT up to the packet, RESET, and sequences of SUBMITs. -/

namespace Sys2Proof.Proofs

open Sys2Proof Sys2Proof.Machine Sys2Proof.Safety

/-! ## The fields of a packet -/

/-- Without `CODEC_REPORTS_SPEECH` the core's indication is `none` (10_state.md R24). -/
theorem codecEncode_speech_none {c c' : Config.CodecState} {frame : List Sample} {bytes : List Byte}
    {speech : Config.Speech} (hanswer : Config.codecEncode c frame = .ok c' bytes speech)
    (hsilent : Config.codecReportsSpeech = false) : speech = .none := by
  unfold Config.codecEncode at hanswer
  split at hanswer
  · cases hanswer
  · rw [hsilent] at hanswer
    cases hanswer
    rfl

theorem speechCode_ne_reserved (speech : Config.Speech) : speechCode speech ≠ 0b11#2 := by
  cases speech <;> decide

/-- Settles O30: the one command course that responds PACKET is the emission of SUBMIT, whose packet is
written out in `SubmitEffect.emitted`. -/
theorem packetFieldsAgree : Obligations.PacketFieldsAgree := by
  unfold Obligations.PacketFieldsAgree
  intro i s t p hexec hpacket
  cases exec_effect hexec with
  | noInstance | alreadyConstructed | wrongLength | constructed | unsupported | destroyed
  | resetDone => simp at hpacket
  | reported _ _ r hreports =>
    obtain rfl : r = .packet p := by simpa using hpacket
    cases hreports
  | submitted ts len samples _ _ _ heffect =>
    cases heffect with
    | buffered | codecFails | wrongSize => simp at hpacket
    | emitted frame c c' bytes speech _ _ _ hanswer hsize =>
      cases hpacket
      refine ⟨hsize, (requiredOutputSize_toNat _).trans hsize.symm, rfl, rfl,
        speechCode_ne_reserved speech, fun hsilent => ?_⟩
      rw [codecEncode_speech_none hanswer hsilent]
      rfl

/-! ## The completing SUBMIT -/

section Complete

variable {ts : Word32} {len : Word16} {samples : List Sample} {s : State} (hinv : Inv s.blk)
  (hready : s.blk.life = .ready) (hsamples : samples.length = 80)
  (hfull : s.blk.counter.toNat + 1 = target s.blk.cfgFd)
include hinv hready hsamples hfull

/-- The completing append leaves a packet that can be read (41_packetizer.md R74). -/
theorem exists_packet_frame : ∃ frame,
    memRead (appendSubFrame ts samples s.blk).buf 0 (pktSamples s.blk.cfgFd) = some frame := by
  refine Option.isSome_iff_exists.1 ((memRead_isSome_iff _ _ _).2 fun k hk => ?_)
  refine appendSubFrame_written hinv hready hsamples ?_
  rw [pktSamples_eq] at hk
  omega

omit hsamples in
/-- The completing SUBMIT is the Codec Core's answer on that packet, met by `finishPacket`. -/
theorem exec_submit_full (hlen : len.toNat = 80) {c : Config.CodecState} {frame : List Sample}
    (hcore : s.blk.cs = some c)
    (hframe : memRead (appendSubFrame ts samples s.blk).buf 0 (pktSamples s.blk.cfgFd) =
      some frame) :
    exec (.submit ts len samples) s =
      finishPacket (Config.codecEncode c frame) (s.setBlk (appendSubFrame ts samples s.blk)) := by
  have hcount : ¬ (appendSubFrame ts samples s.blk).counter.toNat < target s.blk.cfgFd := by
    rw [appendSubFrame_counter, inv_counter_succ hinv hready]
    omega
  rw [exec_submit, execSubmit_of_ready hready hlen, countSubFrame]
  exact (if_neg hcount).trans (encodePacket_eq hframe hcore)

omit hinv hready in
/-- The packet is the buffered samples followed by the command's (41_packetizer.md R73). -/
theorem packet_frame_content {frame : List Sample}
    (hframe : memRead (appendSubFrame ts samples s.blk).buf 0 (pktSamples s.blk.cfgFd) =
      some frame) :
    frame.length = pktSamples s.blk.cfgFd ∧
    (∀ k, k < s.blk.counter.toNat * 80 → s.blk.buf.read k = frame[k]?) ∧
    (∀ k, k < 80 → frame[s.blk.counter.toNat * 80 + k]? = samples[k]?) := by
  obtain ⟨hlength, hread⟩ := (memRead_eq_some_iff _ _ _ _).1 hframe
  simp only [Nat.zero_add, pktSamples_eq, ← hfull] at hread
  refine ⟨hlength, fun k hk => ?_, fun k hk => ?_⟩
  · rw [← hread k (by omega), read_appendSubFrame_below hk]
  · rw [← hread _ (by omega), read_appendSubFrame_at (by omega)]

omit hsamples in
/-- A packet has at least two sub-frames, so the completing SUBMIT keeps TS0. -/
theorem appendSubFrame_ts0_full : (appendSubFrame ts samples s.blk).ts0 = s.blk.ts0 := by
  have hcounter : s.blk.counter ≠ 0 := by
    intro hzero
    rw [hzero] at hfull
    rcases inv_target hinv hready with h | h <;> simp [h] at hfull
  rw [appendSubFrame_ts0, if_neg hcounter]

end Complete

/-- Whatever the Codec Core answers, the configuration and TS0 stay. -/
theorem finishPacket_frame {answer : Config.CodecResult} {s t : State}
    (hfinish : finishPacket answer s = .next t) :
    t.port = s.port ∧ t.blk.cfgFd = s.blk.cfgFd ∧ t.blk.cfgPt = s.blk.cfgPt ∧
      t.blk.ts0 = s.blk.ts0 := by
  cases answer with
  | fail => cases hfinish; exact ⟨rfl, rfl, rfl, rfl⟩
  | ok c' bytes speech =>
    by_cases hsize : bytes.length = requiredOutputSize s.blk.cfgFd
    · rw [finishPacket_emits hsize] at hfinish
      cases hfinish; exact ⟨rfl, rfl, rfl, rfl⟩
    · rw [finishPacket_wrongSize hsize] at hfinish
      cases hfinish; exact ⟨rfl, rfl, rfl, rfl⟩

/-- Settles O27: the frame is what the append leaves, and the three courses are the three cases of
`finishPacket`. -/
theorem submitCompletesPacket : Obligations.SubmitCompletesPacket := by
  unfold Obligations.SubmitCompletesPacket
  intro ts len samples s hinv hready hlen hsamples hfull
  obtain ⟨c, hcore⟩ := Option.isSome_iff_exists.1 (hinv.core hready)
  obtain ⟨frame, hframe⟩ := exists_packet_frame (ts := ts) hinv hready hsamples hfull
  obtain ⟨hlength, hbuffered, hown⟩ := packet_frame_content hsamples hfull hframe
  obtain ⟨t, hfinish⟩ := finishPacket_completes (Config.codecEncode c frame)
    (s.setBlk (appendSubFrame ts samples s.blk))
  obtain ⟨hport, hfd, hpt, hts0⟩ := finishPacket_frame hfinish
  have hheld := appendSubFrame_ts0_full (ts := ts) (samples := samples) hinv hready hfull
  refine ⟨c, frame, t, hcore, hlength, hbuffered, hown,
    (exec_submit_full hinv hready hfull hlen hcore hframe).trans hfinish, hport, hfd, hpt,
    hts0.trans hheld, ?_⟩
  cases hanswer : Config.codecEncode c frame with
  | fail =>
    rw [hanswer, finishPacket_fail] at hfinish
    cases hfinish
    exact ⟨rfl, rfl, rfl, rfl, rfl, hcore⟩
  | ok c' bytes speech =>
    rw [hanswer] at hfinish
    by_cases hsize : bytes.length = requiredOutputSize s.blk.cfgFd
    · rw [finishPacket_emits (s := s.setBlk (appendSubFrame ts samples s.blk)) hsize] at hfinish
      cases hfinish
      have hempty := (packetState_empty_iff (clearPacket c' (appendSubFrame ts samples s.blk))).2
        ⟨hready, rfl⟩
      refine (if_pos hsize).mpr ⟨?_, hempty, rfl, rfl, rfl, rfl⟩
      rw [← hheld]
      rfl
    · rw [finishPacket_wrongSize (s := s.setBlk (appendSubFrame ts samples s.blk)) hsize] at hfinish
      cases hfinish
      exact (if_neg hsize).mpr ⟨rfl, rfl, rfl, rfl, rfl, hcore⟩

/-! ## RESET -/

/-- A command whose word spells no command faults, whatever its bundle holds (30_encoding.md R59). -/
theorem step_of_illegalWord {s : State} {c : Command} {rest : List HostEvent}
    (hport : s.port = .command c :: rest) (hlife : s.blk.life ≠ .faulted)
    (hword : illegalWord c.word = true) :
    step s = .next (enterFault .illegalCommand (c.word.setWidth 16) c.word (s.setPort rest)) := by
  obtain ⟨e, hdecode, herror⟩ := decode_illegal hword
  calc step s = performCommand exec c (s.setPort rest) := by rw [step, performNext, hport]
    _ = raiseIllegal c.word (s.setPort rest) := by
      rw [performCommand_of_error (s := s.setPort rest) hlife hdecode, if_pos herror]
    _ = _ := rfl

/-- Reserved bits that are not zero make every opcode's word illegal. -/
theorem malformedWordFaults_all (opc : BitVec 4) : malformedWordFaults opc := by
  intro s c rest hport hlife hopc hrsv
  have hword : illegalWord c.word = true := by simp [illegalWord, rsvField, hrsv]
  rw [step_of_illegalWord hport hlife hword, ← hopc]
  rfl

/-- Settles O32: the check on LIFE decides between `resetPacketizer` and F_NO_INSTANCE. -/
theorem resetEffect : Obligations.ResetEffect := by
  unfold Obligations.ResetEffect
  intro s
  refine ⟨fun b => decode_of_rsvField (by decide), malformedWordFaults_all _,
    fun hready c hcore => ?_, fun hlife => ?_⟩
  · rw [exec_reset, whenReady_of_ready hready, resetPacketizer, hcore]
    rfl
  · rw [exec_reset, whenReady_of_unconstructed hlife]
    rfl

/-! ## Sequences of SUBMITs -/

/-- A sequence of commands that all respond is its first command and the rest. -/
theorem performAll_cons_some {i : Instr} {is : List Instr} {s u : State} {rs : List Response}
    (hall : performAll (i :: is) s = some (rs, u)) :
    ∃ t r rs', exec i s = .next t ∧ t.resp = some r ∧ performAll is t = some (rs', u) ∧
      rs = r :: rs' := by
  rw [performAll] at hall
  cases hexec : exec i s with
  | fault f => simp [hexec] at hall
  | refused r => simp [hexec] at hall
  | next t =>
    cases hresp : t.resp with
    | none => simp [hexec, hresp] at hall
    | some r =>
      cases hrest : performAll is t with
      | none => simp [hexec, hresp, hrest] at hall
      | some p =>
        simp only [hexec, hresp, hrest, Option.some.injEq, Prod.mk.injEq] at hall
        obtain ⟨rfl, rfl⟩ := hall
        exact ⟨t, r, p.1, rfl, hresp, hrest, rfl⟩

/-- A SUBMIT that responds has appended its samples: below the target that is all, and at the target the
packet is emitted and the counter is 0 again. -/
theorem submit_responds {ts : Word32} {samples : List Sample} {s t : State} {r : Response}
    (hinv : Inv s.blk) (hready : s.blk.life = .ready)
    (hexec : exec (.submit ts 80 samples) s = .next t) (hresp : t.resp = some r) :
    (s.blk.counter.toNat + 1 < target s.blk.cfgFd ∧ r = .noPacket ∧
      t.blk = appendSubFrame ts samples s.blk) ∨
    (s.blk.counter.toNat + 1 = target s.blk.cfgFd ∧ isPacket r = true ∧
      ∃ next, t.blk = clearPacket next (appendSubFrame ts samples s.blk)) := by
  have hcount := hinv.counting hready
  have hsucc := inv_counter_succ hinv hready
  rcases execSubmit_next hexec with ⟨hlife, _⟩ | ⟨_, hlen, _⟩ | ⟨_, _, heffect⟩
  · simp [hready] at hlife
  · exact absurd rfl hlen
  · cases heffect with
    | codecFails | wrongSize => simp at hresp
    | buffered hbelow =>
      cases hresp
      refine .inl ⟨?_, rfl, rfl⟩
      rwa [State.setBlk_blk, appendSubFrame_counter, hsucc] at hbelow
    | emitted frame c c' bytes speech hfull =>
      cases hresp
      rw [State.setBlk_blk, appendSubFrame_counter, hsucc, appendSubFrame_cfgFd] at hfull
      exact .inr ⟨by omega, rfl, c', rfl⟩

/-- What a block that was EMPTY holds after the sub-frames `done`: those since the last packet are
counted, and TS0 is the first one's timestamp (10_state.md R30 d). -/
structure Buffering (fd : Word16) (done : List SubFrame) (b : Block) : Prop where
  inv : Inv b
  life : b.life = .ready
  cfgFd : b.cfgFd = fd
  counter : b.counter.toNat = done.length % target fd
  ts0 : b.counter ≠ 0 →
    ∃ f, done[done.length - b.counter.toNat]? = some f ∧ b.ts0 = f.1

theorem buffering_of_empty {b : Block} (hinv : Inv b) (hempty : b.packetState = some .empty) :
    Buffering b.cfgFd [] b := by
  obtain ⟨hready, hcounter⟩ := (packetState_empty_iff b).1 hempty
  exact ⟨hinv, hready, rfl, by simp [hcounter], fun h => absurd hcounter h⟩

/-- TS0 after the append is the timestamp of the earliest buffered sub-frame, the new one if there was
none before. -/
theorem buffering_append_ts0 {fd : Word16} {done : List SubFrame} {b : Block}
    (hbuf : Buffering fd done b) (f : SubFrame) :
    ∃ g, (done ++ [f])[done.length - b.counter.toNat]? = some g ∧
      (appendSubFrame f.1 f.2 b).ts0 = g.1 := by
  by_cases hcounter : b.counter = 0
  · exact ⟨f, by simp [hcounter], by simp [hcounter]⟩
  · obtain ⟨g, hget, hts0⟩ := hbuf.ts0 hcounter
    refine ⟨g, ?_, by rw [appendSubFrame_ts0, if_neg hcounter, hts0]⟩
    obtain ⟨hlt, _⟩ := List.getElem?_eq_some_iff.1 hget
    rw [List.getElem?_append_left hlt, hget]

/-- One more sub-frame keeps `Buffering`. -/
theorem buffering_submit {fd : Word16} {done : List SubFrame} {f : SubFrame} {s t : State}
    {r : Response} (hbuf : Buffering fd done s.blk) (hwhole : f.2.length = 80)
    (hexec : exec (.submit f.1 80 f.2) s = .next t) (hresp : t.resp = some r) :
    Buffering fd (done ++ [f]) t.blk := by
  have hinv : Inv t.blk :=
    exec_keeps_inv (by simp [WellFormed, samplesMatch, hwhole]) hbuf.inv hexec
  have hsucc := inv_counter_succ hbuf.inv hbuf.life
  have hlength : (done ++ [f]).length = done.length + 1 := by simp
  have hmod : (done ++ [f]).length % target fd = (s.blk.counter.toNat + 1) % target fd := by
    rw [hlength, ← Nat.mod_add_mod, ← hbuf.counter]
  have hcourse := submit_responds hbuf.inv hbuf.life hexec hresp
  rw [hbuf.cfgFd] at hcourse
  rcases hcourse with ⟨hbelow, _, hblk⟩ | ⟨hfull, _, next, hblk⟩ <;> rw [hblk] at hinv ⊢
  · refine ⟨hinv, hbuf.life, hbuf.cfgFd, ?_, fun _ => ?_⟩
    · rw [hmod, Nat.mod_eq_of_lt hbelow, appendSubFrame_counter, hsucc]
    · rw [hlength, appendSubFrame_counter, hsucc, Nat.add_sub_add_right]
      exact buffering_append_ts0 hbuf f
  · refine ⟨hinv, hbuf.life, hbuf.cfgFd, ?_, fun hcounter => absurd rfl hcounter⟩
    rw [hmod, hfull, Nat.mod_self]
    rfl

/-- Every sequence of whole sub-frames keeps `Buffering`. -/
theorem buffering_submits {fd : Word16} {fs done : List SubFrame} {s t : State}
    {rs : List Response} (hbuf : Buffering fd done s.blk) (hwhole : wholeSubFrames fs)
    (hall : performAll (submits fs) s = some (rs, t)) : Buffering fd (done ++ fs) t.blk := by
  induction fs generalizing done s rs with
  | nil =>
    cases hall
    rwa [List.append_nil]
  | cons f fs ih =>
    obtain ⟨u, r, rs', hexec, hresp, hrest, _⟩ := performAll_cons_some hall
    obtain ⟨hf, hfs⟩ := List.forall_mem_cons.1 hwhole
    rw [List.append_cons]
    exact ih (buffering_submit hbuf hf hexec hresp) hfs hrest

/-- Settles O52: `Buffering` from EMPTY, where no sub-frame is done, to the end of the sequence. -/
theorem firstTimestampIsHeld : Obligations.FirstTimestampIsHeld := by
  unfold Obligations.FirstTimestampIsHeld
  intro fs s t rs hinv hempty hwhole hall hvalid
  have hbuf := buffering_submits (buffering_of_empty hinv hempty) hwhole hall
  rw [List.nil_append] at hbuf
  rw [← hbuf.counter]
  exact hbuf.ts0 (by simpa [Block.ts0Valid] using hvalid)

end Sys2Proof.Proofs

/-! PROOFS. What SUBMIT leaves unchanged. -/

namespace Sys2Proof.Proofs

open Sys2Proof Sys2Proof.Machine Sys2Proof.Safety

/-- Past the append, SUBMIT writes none of the port, the configuration, TS0 and the buffer. -/
theorem submitEffect_frame {s t : State} (heffect : SubmitEffect s t) :
    t.port = s.port ∧ t.blk.cfgFd = s.blk.cfgFd ∧ t.blk.cfgPt = s.blk.cfgPt ∧
      t.blk.ts0 = s.blk.ts0 ∧ t.blk.buf = s.blk.buf := by
  cases heffect with
  | buffered | codecFails | wrongSize | emitted => exact ⟨rfl, rfl, rfl, rfl, rfl⟩

/-- The append writes inside the 80 elements at `COUNTER * 80` alone (41_packetizer.md R73). -/
theorem read_appendSubFrame_outside {ts : Word32} {samples : List Sample} {b : Block} {a : Nat}
    (hlen : samples.length = 80)
    (ha : a < b.counter.toNat * 80 ∨ b.counter.toNat * 80 + 80 ≤ a) :
    (appendSubFrame ts samples b).buf.read a = b.buf.read a :=
  read_memWrite_outside _ _ _ _ (by rwa [hlen, occ_eq])

/-- A command that does not end in FAULTED has responded, so it keeps the fault registers. -/
theorem exec_keeps_fault_registers {i : Instr} {s t : State} (hexec : exec i s = .next t)
    (hlive : t.blk.life ≠ .faulted) : t.blk.faultCause = s.blk.faultCause ∧
      t.blk.faultOpc = s.blk.faultOpc ∧ t.blk.faultInfo = s.blk.faultInfo := by
  rcases exec_faults_or_responds hexec with hfault | hresp
  · exact absurd hfault.life hlive
  · exact ⟨hresp.faultCause, hresp.faultOpc, hresp.faultInfo⟩

/-- Settles O29: without an instance or with a wrong length SUBMIT is a fault entry alone; otherwise it
is the append, which is in the buffer's range and writes TS0 in EMPTY only, and what follows it. -/
theorem submitFrame : Obligations.SubmitFrame := by
  unfold Obligations.SubmitFrame
  intro ts len samples s t hsamples hexec
  have hfaultRegs := exec_keeps_fault_registers hexec
  rcases execSubmit_next hexec with ⟨_, rfl⟩ | ⟨_, _, rfl⟩ | ⟨hready, hlen, heffect⟩
  case inl | inr.inl => exact ⟨rfl, rfl, rfl, fun _ => rfl, hfaultRegs, fun _ _ => rfl⟩
  case inr.inr =>
    obtain ⟨hport, hfd, hpt, hts0, hbuf⟩ := submitEffect_frame heffect
    refine ⟨hport, hfd, hpt, fun hcounter => ?_, hfaultRegs, fun a ha => ?_⟩
    · exact hts0.trans (if_neg hcounter)
    · have houtside := (ha.resolve_left (not_not_intro hready)).resolve_left (not_not_intro hlen)
      rw [hbuf]
      exact read_appendSubFrame_outside (hsamples.trans hlen) houtside

end Sys2Proof.Proofs

/-! PROOFS. Decoding and encoding a command (30_encoding.md R44 to R47, R59). -/

namespace Sys2Proof.Proofs

open Sys2Proof Sys2Proof.Machine Sys2Proof.Safety

/-! ## Operand assembly -/

/-- Operand assembly reads no field but those listed for the opcode. -/
theorem assemble_congr {opc : BitVec 4} {b c : Bundle} (hlisted : sameListedFields opc b c) :
    assemble opc b = assemble opc c := by
  obtain ⟨hcfg, hlegacy, hfmt, hsubmit, hname⟩ := hlisted
  simp only [assemble]
  split
  case h_1 hopc =>
    obtain ⟨hpt, hfd⟩ := hcfg (BitVec.eq_of_toNat_eq hopc)
    rw [hpt, hfd]
  case h_2 hopc =>
    obtain ⟨hpt, hrate, hch, hfd⟩ := hlegacy (BitVec.eq_of_toNat_eq hopc)
    rw [hpt, hrate, hch, hfd]
  case h_3 hopc =>
    obtain ⟨hpt, hdescriptor⟩ := hfmt (BitVec.eq_of_toNat_eq hopc)
    rw [hpt, hdescriptor]
  case h_5 hopc =>
    obtain ⟨hts, hlen, hsamples⟩ := hsubmit (BitVec.eq_of_toNat_eq hopc)
    rw [hts, hlen, hsamples]
  case h_13 hopc => rw [hname (.inl (BitVec.eq_of_toNat_eq hopc))]
  case h_14 hopc => rw [hname (.inr (BitVec.eq_of_toNat_eq hopc))]
  all_goals rfl

/-- A well-formed command is assembled from the fields it takes. -/
theorem assemble_bundle {i : Instr} (hwell : WellFormed i = true) :
    assemble i.opc i.bundle = .ok i := by
  cases i with
  | constructFmt | submit | resolve | capability => exact if_pos hwell
  | constructCfg | constructLegacy | destroy | reset | qRate | qChannels | qNext | qMax | qBitrate
  | qName => rfl

/-- A command is assembled from a bundle that holds each field it takes. -/
theorem sameListedFields_of_assemble {i : Instr} {b : Bundle} (hok : assemble i.opc b = .ok i) :
    sameListedFields i.opc i.bundle b := by
  cases i with
  | constructCfg | constructLegacy =>
    cases hok
    simp [sameListedFields, Instr.opc, Instr.bundle]
  | constructFmt | submit | resolve | capability =>
    obtain ⟨_, hfields⟩ | ⟨_, herror⟩ := ite_eq_iff.1 hok
    · cases hfields
      simp [sameListedFields, Instr.opc, Instr.bundle]
    · cases herror
  | destroy | reset | qRate | qChannels | qNext | qMax | qBitrate | qName =>
    simp [sameListedFields, Instr.opc]

/-- From a bundle the spec can express, operand assembly rejects the opcode alone (30_encoding.md R49,
R53). -/
theorem assemble_error_of_expressible {opc : BitVec 4} {b : Bundle} {e : DecodeError}
    (hsamples : b.samples.length = b.len.toNat) (hname : b.fmt.name.length ≤ 255)
    (herror : assemble opc b = .error e) : e.illegalWord = true := by
  have hmatch : samplesMatch b.len b.samples = true := decide_eq_true hsamples
  have hwell : b.fmt.wellFormed = true := decide_eq_true hname
  simp only [assemble, hmatch, hwell, if_true] at herror
  split at herror <;> cases herror <;> rfl

/-! ## The decoder and the encoder -/

theorem decode_encode {i : Instr} (hwell : WellFormed i = true) : decode (encode i) = .ok i := by
  calc decode (encode i) = assemble (opcField i.word) i.bundle := decode_of_rsvField i.rsvField_word
    _ = assemble i.opc i.bundle := by rw [i.opcField_word]
    _ = .ok i := assemble_bundle hwell

/-- Settles O2: the word holds the opcode under zero reserved bits, and the bundle holds the fields the
command takes. -/
theorem decodeOfEncodeIsSame : Obligations.DecodeOfEncodeIsSame := fun _ => decode_encode

/-- Settles O3: a decoded command is well-formed and was assembled from the listed fields. -/
theorem decodedCommandReencodes : Obligations.DecodedCommandReencodes := by
  unfold Obligations.DecodedCommandReencodes
  intro c i hdecode
  obtain ⟨hwell, hword, hassemble⟩ := decode_ok hdecode
  refine ⟨hwell, hword, decode_encode hwell, ?_⟩
  rw [← hword, i.opcField_word]
  exact sameListedFields_of_assemble hassemble

/-- Settles O4: the decoder reads the bundle in operand assembly alone. -/
theorem unlistedFieldsIgnored : Obligations.UnlistedFieldsIgnored := by
  unfold Obligations.UnlistedFieldsIgnored
  intro w b c hlisted
  simp only [decode, opcField, assemble_congr hlisted]

/-! ## Legal words -/

theorem illegalWord_eq_true_iff (w : Byte) :
    illegalWord w = true ↔ rsvField w ≠ 0#4 ∨ opcField w = 0x0#4 ∨ opcField w = 0xF#4 := by
  simp [illegalWord, or_assoc]

/-- With a bundle the spec can express, a command is decoded unless its word is illegal. -/
theorem decode_of_expressible {c : Command} (hsamples : c.bundle.samples.length = c.bundle.len.toNat)
    (hname : c.bundle.fmt.name.length ≤ 255) (hlegal : illegalWord c.word ≠ true) :
    ∃ i, decode c = .ok i := by
  cases hdecode : decode c with
  | ok i => exact ⟨i, rfl⟩
  | error e =>
    have hrsv : rsvField c.word = 0#4 :=
      not_not.1 fun h => hlegal ((illegalWord_eq_true_iff _).2 (.inl h))
    have herror := (decode_of_rsvField hrsv).symm.trans hdecode
    rw [← decode_error_illegal hdecode] at hlegal
    exact absurd (assemble_error_of_expressible hsamples hname herror) hlegal

/-- The words of commands are the legal words. -/
theorem exists_word_eq_iff (w : Byte) : (∃ i : Instr, i.word = w) ↔ illegalWord w ≠ true := by
  constructor
  · rintro ⟨i, rfl⟩
    simp [i.word_legal]
  · intro hlegal
    obtain ⟨i, hdecode⟩ := decode_of_expressible (c := ⟨w, Bundle.zero⟩) rfl (Nat.zero_le _) hlegal
    obtain ⟨_, hword, _⟩ := decode_ok hdecode
    exact ⟨i, hword⟩

/-- Settles O5: a legal word is decoded with every bundle the spec can express, the zero bundle for
one, so some command has it. -/
theorem everyLegalWordDecodes : Obligations.EveryLegalWordDecodes := by
  unfold Obligations.EveryLegalWordDecodes
  intro c
  refine ⟨?_, fun hword hsamples hname => ?_⟩
  · rw [exists_word_eq_iff, ne_eq, illegalWord_eq_true_iff, not_or, not_or, not_not]
    rfl
  · obtain ⟨i, hdecode⟩ := decode_of_expressible hsamples hname ((exists_word_eq_iff _).1 hword)
    obtain ⟨_, hword, _⟩ := decode_ok hdecode
    exact ⟨i, hdecode, hword⟩

/-- Settles O6: the three shapes are those of an illegal word, and the fault entry writes only what
60_exceptions.md R103 lists. -/
theorem illegalWordFaults : Obligations.IllegalWordFaults := by
  unfold Obligations.IllegalWordFaults
  intro s c rest hport hlife hshape
  rw [step_of_illegalWord hport hlife ((illegalWord_eq_true_iff _).2 hshape)]
  rfl

/-- Settles O1: each word's reserved bits are zero, and its opcode picks the command. -/
theorem sampleWordsDecode : Obligations.SampleWordsDecode := by
  unfold Obligations.SampleWordsDecode
  intro b
  refine ⟨decode_of_rsvField (by decide), decode_of_rsvField (by decide),
    decode_of_rsvField (by decide), decode_of_rsvField (by decide), fun hsamples => ?_,
    fun hname => ?_⟩
  · exact (decode_of_rsvField (by decide)).trans (if_pos (decide_eq_true hsamples))
  · exact (decode_of_rsvField (by decide)).trans (if_pos (decide_eq_true hname))

end Sys2Proof.Proofs

/-! PROOFS. What an issued command answers: that it completes (70_reset_and_hazards.md R123), and which
response it returns (30_encoding.md R55, R57). -/

namespace Sys2Proof.Proofs

open Sys2Proof Sys2Proof.Machine Sys2Proof.Safety

/-! ## Completion -/

/-- A command with this result has completed: there is a next state. -/
def Completes (r : Result) : Prop := ∃ t, r = .next t

theorem completes_whenAlive {s : State} {k : State → Result} (hlife : s.blk.life ≠ .faulted)
    (hk : Completes (k s)) : Completes (whenAlive s k) := by
  rwa [whenAlive_of_alive hlife]

theorem completes_whenReady {cw : Byte} {s : State} {k : State → Result}
    (hlife : s.blk.life ≠ .faulted) (hk : s.blk.life = .ready → Completes (k s)) :
    Completes (whenReady cw s k) := by
  cases hs : s.blk.life with
  | faulted => exact absurd hs hlife
  | unconstructed => exact ⟨_, whenReady_of_unconstructed hs⟩
  | ready =>
    rw [whenReady_of_ready hs]
    exact hk hs

theorem completes_whenUnconstructed {cw : Byte} {s : State} {k : State → Result}
    (hlife : s.blk.life ≠ .faulted) (hk : Completes (k s)) :
    Completes (whenUnconstructed cw s k) := by
  cases hs : s.blk.life with
  | faulted => exact absurd hs hlife
  | unconstructed => rwa [whenUnconstructed_of_unconstructed hs]
  | ready => exact ⟨_, whenUnconstructed_of_ready hs⟩

theorem completes_respond (r : Response) (s : State) : Completes (respond r s) := ⟨_, rfl⟩

theorem completes_constructIf (valid : Bool) (fd : Word16) (pt : Byte) (s : State) :
    Completes (constructIf valid fd pt s) := by
  cases valid <;> exact completes_respond _ _

/-- SUBMIT in READY completes: at the target there is a packet to read and a Codec Core to give
it to (10_state.md R22, R25). -/
theorem completes_submit {ts : Word32} {len : Word16} {samples : List Sample} {s : State}
    (hwell : WellFormed (.submit ts len samples) = true) (hinv : Inv s.blk)
    (hready : s.blk.life = .ready) : Completes (exec (.submit ts len samples) s) := by
  by_cases hlen : len.toNat = 80
  · by_cases hfull : s.blk.counter.toNat + 1 = target s.blk.cfgFd
    · obtain ⟨c, hcore⟩ := Option.isSome_iff_exists.1 (hinv.core hready)
      obtain ⟨frame, hframe⟩ := exists_packet_frame (ts := ts) hinv hready
        (wellFormed_submit_length hwell hlen) hfull
      rw [exec_submit_full hinv hready hfull hlen hcore hframe]
      exact finishPacket_completes _ _
    · have hbelow : (appendSubFrame ts samples s.blk).counter.toNat < target s.blk.cfgFd := by
        have hcount := hinv.counting hready
        rw [appendSubFrame_counter, inv_counter_succ hinv hready]
        omega
      rw [exec_submit, execSubmit_of_ready hready hlen, countSubFrame]
      exact ⟨_, if_pos hbelow⟩
  · rw [exec_submit, execSubmit, whenReady_of_ready hready]
    exact ⟨_, if_pos hlen⟩

/-- EVERY COMMAND the spec can express completes outside FAULTED. -/
theorem exec_completes {i : Instr} {s : State} (hwell : WellFormed i = true) (hinv : Inv s.blk)
    (hlife : s.blk.life ≠ .faulted) : Completes (exec i s) := by
  cases i with
  | constructCfg | constructLegacy =>
    exact completes_whenUnconstructed hlife (completes_constructIf _ _ _ _)
  | constructFmt pt fmt =>
    rw [exec_constructFmt]
    refine completes_whenUnconstructed hlife ?_
    cases resolve fmt <;> exact completes_constructIf _ _ _ _
  | submit ts len samples =>
    cases hs : s.blk.life with
    | faulted => exact absurd hs hlife
    | unconstructed =>
      rw [exec_submit, execSubmit]
      exact ⟨_, whenReady_of_unconstructed hs⟩
    | ready => exact completes_submit hwell hinv hs
  | destroy | reset | qRate | qChannels | qNext | qMax | qBitrate =>
    simp only [exec_destroy, exec_reset, exec_qRate, exec_qChannels, exec_qNext, exec_qMax,
      exec_qBitrate]
    exact completes_whenReady hlife fun _ => completes_respond _ _
  | qName | resolve | capability => exact completes_whenAlive hlife (completes_respond _ _)

/-- No command writes the port. -/
theorem exec_port {i : Instr} {s t : State} (hexec : exec i s = .next t) : t.port = s.port := by
  cases exec_effect hexec with
  | noInstance | alreadyConstructed | wrongLength | constructed | unsupported | reported | destroyed
  | resetDone => rfl
  | submitted _ _ _ _ _ _ heffect =>
    obtain ⟨hport, _⟩ := submitEffect_frame heffect
    exact hport

/-- Settles O14: with such a bundle the word is illegal, which is a fault entry, or it is decoded to a
well-formed command, which completes. -/
theorem issuedCommandCompletes : Obligations.IssuedCommandCompletes := by
  unfold Obligations.IssuedCommandCompletes
  intro s c rest hinv hlife hport hsamples hname
  by_cases hword : illegalWord c.word = true
  · exact ⟨_, step_of_illegalWord hport hlife hword, rfl, iff_of_true rfl rfl⟩
  · obtain ⟨i, hdecode⟩ := decode_of_expressible hsamples hname hword
    obtain ⟨hwell, _, _⟩ := decode_ok hdecode
    obtain ⟨t, hexec⟩ := exec_completes (s := s.setPort rest) hwell hinv hlife
    refine ⟨t, (stepRunsDecodedCommand s c rest i hport hlife hdecode).trans hexec,
      exec_port hexec, ?_⟩
    rcases exec_faults_or_responds hexec with hfault | hresp
    · exact iff_of_true hfault.resp hfault.life
    · exact iff_of_false hresp.resp hresp.life

/-! ## The response -/

section Answers

variable {cw : Byte} {s t : State} {k : State → Result} {r : Response} (hresp : t.resp = some r)
include hresp

/-- A command that responds has passed its check on LIFE. -/
theorem whenReady_of_response (hnext : whenReady cw s k = .next t) : k s = .next t := by
  rcases whenReady_next hnext with ⟨_, hk⟩ | ⟨_, rfl⟩
  · exact hk
  · cases hresp

theorem whenUnconstructed_of_response (hnext : whenUnconstructed cw s k = .next t) : k s = .next t := by
  rcases whenUnconstructed_next hnext with ⟨_, hk⟩ | ⟨_, rfl⟩
  · exact hk
  · cases hresp

theorem respond_response {r' : Response} (hnext : respond r' s = .next t) : r = r' := by
  cases hnext
  exact (Option.some.inj hresp).symm

theorem constructIf_response {valid : Bool} {fd : Word16} {pt : Byte}
    (hnext : constructIf valid fd pt s = .next t) : r = .ok .plain ∨ r = .unsupported := by
  cases valid with
  | true => exact .inl (respond_response (s := construct fd pt s) hresp hnext)
  | false => exact .inr (respond_response hresp hnext)

theorem submitEffect_response (heffect : SubmitEffect s t) : r = .noPacket ∨ ∃ p, r = .packet p := by
  cases heffect with
  | buffered => exact .inl (Option.some.inj hresp).symm
  | codecFails | wrongSize => cases hresp
  | emitted => exact .inr ⟨_, (Option.some.inj hresp).symm⟩

theorem submit_response {ts : Word32} {len : Word16} {samples : List Sample}
    (hexec : exec (.submit ts len samples) s = .next t) : r = .noPacket ∨ ∃ p, r = .packet p := by
  rcases execSubmit_next hexec with ⟨_, rfl⟩ | ⟨_, _, rfl⟩ | ⟨_, _, heffect⟩
  · cases hresp
  · cases hresp
  · exact submitEffect_response hresp heffect

end Answers

theorem resolveResponse_fits (f : FormatDescriptor) :
    responseFits (.resolve f) (resolveResponse f) := by
  unfold resolveResponse
  cases hresolve : resolve f with
  | cfg fd => exact .inl ⟨fd, resolve_cfg hresolve, rfl⟩
  | unsupported => exact .inr rfl

theorem capabilityResponse_fits (f : FormatDescriptor) :
    responseFits (.capability f) (capabilityResponse f) := by
  unfold capabilityResponse
  cases resolve f with
  | cfg => exact .inl ⟨_, _, _, _, rfl⟩
  | unsupported => exact .inr rfl

/-- EVERY COMMAND that responds returns what its row of the result table lists. -/
theorem exec_responseFits {i : Instr} {s t : State} {r : Response} (hexec : exec i s = .next t)
    (hresp : t.resp = some r) : responseFits i r := by
  cases i with
  | constructCfg | constructLegacy =>
    exact constructIf_response hresp (whenUnconstructed_of_response hresp hexec)
  | constructFmt pt fmt =>
    rw [exec_constructFmt] at hexec
    have hconstruct := whenUnconstructed_of_response hresp hexec
    split at hconstruct <;> exact constructIf_response hresp hconstruct
  | destroy | reset =>
    simp only [exec_destroy, exec_reset] at hexec
    have hanswer := whenReady_of_response hresp hexec
    exact respond_response hresp hanswer
  | submit => exact submit_response hresp hexec
  | qRate | qChannels | qNext | qMax | qBitrate =>
    simp only [exec_qRate, exec_qChannels, exec_qNext, exec_qMax, exec_qBitrate] at hexec
    have hanswer := whenReady_of_response hresp hexec
    exact ⟨_, respond_response hresp hanswer⟩
  | qName =>
    obtain ⟨_, hanswer⟩ := whenAlive_next hexec
    exact ⟨_, respond_response hresp hanswer⟩
  | resolve fmt =>
    obtain ⟨_, hanswer⟩ := whenAlive_next hexec
    rw [respond_response hresp hanswer]
    exact resolveResponse_fits fmt
  | capability fmt =>
    obtain ⟨_, hanswer⟩ := whenAlive_next hexec
    rw [respond_response hresp hanswer]
    exact capabilityResponse_fits fmt

/-- The code of `STATUS` tells the four kinds of response apart (30_encoding.md R55). -/
theorem status_iff (r : Response) :
    (r.status = 0x0#4 ↔ ∃ f, r = .ok f) ∧ (r.status = 0x1#4 ↔ r = .noPacket) ∧
      (r.status = 0x2#4 ↔ ∃ p, r = .packet p) ∧ (r.status = 0x3#4 ↔ r = .unsupported) := by
  cases r <;> simp [Response.status]

/-- Settles O41: a command enters a fault, or it responds, and then its response fits. -/
theorem responseFitsCommand : Obligations.ResponseFitsCommand := by
  unfold Obligations.ResponseFitsCommand
  intro i s t hexec
  rcases exec_faults_or_responds hexec with hfault | hresponded
  · exact ⟨fun _ => hfault.resp, fun hlife => absurd hfault.life hlife⟩
  · obtain ⟨r, hresp⟩ := Option.ne_none_iff_exists'.1 hresponded.resp
    exact ⟨fun hlife => absurd hlife hresponded.life,
      fun _ => ⟨r, hresp, exec_responseFits hexec hresp, status_iff r⟩⟩

end Sys2Proof.Proofs

/-! PROOFS. The Format Resolver and the three commands that use it: RESOLVE, CAPABILITY and
CONSTRUCT_FMT (40_format_resolver.md, 43_lifecycle.md R91, R92). -/

namespace Sys2Proof.Proofs

open Sys2Proof Sys2Proof.Machine Sys2Proof.Safety

/-! ## The resolver -/

/-- The resolver's conditions, those on the name, the rate and the channel count taken together
(40_format_resolver.md R63). -/
theorem resolve_eq_conditions (f : FormatDescriptor) :
    resolve f =
      if Config.nameAccept f.name = true ∧ f.rate.toNat = 8000 ∧ f.ch.toNat = 1 then
        if f.frPresent = false then .cfg 20
        else if f.frWf = true ∧ f.frVal.toNat = 20 then .cfg 20
        else if f.frWf = true ∧ f.frVal.toNat = 30 then .cfg 30
        else .unsupported
      else .unsupported := by
  rw [resolve_eq_spec_order]
  by_cases hformat : Config.nameAccept f.name = true ∧ f.rate.toNat = 8000 ∧ f.ch.toNat = 1
  · obtain ⟨hname, hrate, hch⟩ := hformat
    cases hwf : f.frWf <;> simp [hname, hrate, hch, resolveFraming, hwf, Config.fdDefault]
  · rw [if_neg hformat]
    split_ifs with hname hrate hch
    · rfl
    · rfl
    · rfl
    · exact absurd ⟨eq_true_of_ne_false hname, not_not.1 hrate, not_not.1 hch⟩ hformat

/-- A framing parameter that is present and not recognised is never given the default
(40_format_resolver.md R65). -/
theorem resolve_of_unrecognised_framing {f : FormatDescriptor} (hpresent : f.frPresent = true)
    (hframing : f.frWf = false ∨ (f.frVal.toNat ≠ 20 ∧ f.frVal.toNat ≠ 30)) :
    resolve f = .unsupported := by
  rw [resolve_eq_conditions]
  rcases hframing with hwf | ⟨h20, h30⟩
  · simp [hpresent, hwf]
  · simp [hpresent, h20, h30]

/-- The bitrate range's ends are in order (40_format_resolver.md R67). -/
theorem brMin_le_brMax (fd : Nat) : (Config.brMin fd).toNat ≤ (Config.brMax fd).toNat := by
  unfold Config.brMin Config.brMax
  split_ifs with hle
  · exact hle
  · exact (not_le.1 hle).le

/-! ## A command that takes a descriptor -/

/-- A command that takes the descriptor is decoded when the spec can express the codec name's length
(30_encoding.md R53). -/
theorem decode_of_name_length {w : Byte} {b : Bundle} {i : Instr} (hrsv : rsvField w = 0#4)
    (hassemble : assemble (opcField w) b =
      if b.fmt.wellFormed then .ok i else .error .nameTooLong)
    (hname : b.fmt.name.length ≤ 255) : decode ⟨w, b⟩ = .ok i := by
  rw [decode_of_rsvField hrsv, hassemble]
  exact if_pos (decide_eq_true hname)

/-! ## RESOLVE and CAPABILITY -/

section Alive

variable {f : FormatDescriptor} {s : State} (hlife : s.blk.life ≠ .faulted)
include hlife

theorem exec_resolve_of_alive :
    exec (.resolve f) s = .next (responded (resolveResponse f) s) := whenAlive_of_alive hlife

theorem exec_capability_of_alive :
    exec (.capability f) s = .next (responded (capabilityResponse f) s) := whenAlive_of_alive hlife

end Alive

section Responses

variable {f : FormatDescriptor}

theorem resolveResponse_of_cfg {fd : Word16} (hresolve : resolve f = .cfg fd) :
    resolveResponse f = .ok (.resFd fd) := by rw [resolveResponse, hresolve]

theorem resolveResponse_of_unsupported (hresolve : resolve f = .unsupported) :
    resolveResponse f = .unsupported := by rw [resolveResponse, hresolve]

theorem capabilityResponse_of_cfg {fd : Word16} (hresolve : resolve f = .cfg fd) :
    capabilityResponse f =
      .ok (.capability 8000 1 (Config.brMin fd.toNat) (Config.brMax fd.toNat)) := by
  rw [capabilityResponse, hresolve]
  rfl

theorem capabilityResponse_of_unsupported (hresolve : resolve f = .unsupported) :
    capabilityResponse f = .unsupported := by rw [capabilityResponse, hresolve]

end Responses

/-- Settles O15: outside FAULTED the response is a function of the descriptor, and the resolver has
one answer under each of the written conditions. -/
theorem resolveAnswersResolver : Obligations.ResolveAnswersResolver := by
  unfold Obligations.ResolveAnswersResolver
  refine ⟨fun b => decode_of_name_length (by decide) rfl, malformedWordFaults_all _,
    fun fmt s hlife => ?_⟩
  rw [exec_resolve_of_alive hlife, resolveResponse, resolve_eq_conditions]
  split_ifs <;> rfl

/-- Settles O16: the response is that of the resolver's answer, and the range's ends are sorted. -/
theorem capabilityAnswersRange : Obligations.CapabilityAnswersRange := by
  unfold Obligations.CapabilityAnswersRange
  refine ⟨fun b => decode_of_name_length (by decide) rfl, malformedWordFaults_all _,
    fun fmt s hlife => ?_, brMin_le_brMax⟩
  rw [exec_capability_of_alive hlife]
  cases hresolve : resolve fmt with
  | cfg fd => rw [capabilityResponse_of_cfg hresolve]
  | unsupported => rw [capabilityResponse_of_unsupported hresolve]

/-! ## CONSTRUCT_FMT -/

/-- The canonical construction step, ended with `OK`, leaves what 43_lifecycle.md R91 lists. -/
theorem constructed_construct (fd : Word16) (pt : Byte) (s : State) :
    Constructed fd pt s ((construct fd pt s).setResp (some (.ok .plain))) := by
  constructor <;> rfl

section ConstructFmt

variable {pt : Byte} {f : FormatDescriptor} {s : State} (hlife : s.blk.life = .unconstructed)
include hlife

theorem exec_constructFmt_of_cfg {fd : Word16} (hresolve : resolve f = .cfg fd) :
    ∃ t, exec (.constructFmt pt f) s = .next t ∧ Constructed fd pt s t := by
  rw [exec_constructFmt, whenUnconstructed_of_unconstructed hlife, hresolve]
  exact ⟨_, rfl, constructed_construct fd pt s⟩

theorem exec_constructFmt_of_unsupported (hresolve : resolve f = .unsupported) :
    exec (.constructFmt pt f) s = .next (responded .unsupported s) := by
  rw [exec_constructFmt, whenUnconstructed_of_unconstructed hlife, hresolve]
  rfl

end ConstructFmt

/-- Settles O20: the resolver's answer under each of the written conditions decides what is
constructed. -/
theorem constructFmtEffect : Obligations.ConstructFmtEffect := by
  unfold Obligations.ConstructFmtEffect
  intro pt fmt s
  refine ⟨fun b => decode_of_name_length (by decide) rfl, malformedWordFaults_all _,
    fun hlife => ?_,
    fun hready => exec_constructFmt.trans (whenUnconstructed_of_ready hready)⟩
  have hresolve := resolve_eq_conditions fmt
  split_ifs at hresolve ⊢
  · exact exec_constructFmt_of_cfg hlife hresolve
  · exact exec_constructFmt_of_cfg hlife hresolve
  · exact exec_constructFmt_of_cfg hlife hresolve
  · exact ⟨_, exec_constructFmt_of_unsupported hlife hresolve, rfl⟩
  · exact ⟨_, exec_constructFmt_of_unsupported hlife hresolve, rfl⟩

/-! ## Agreement -/

/-- Settles O17: the three commands read the descriptor through the resolver alone, so its answer
decides which side they are all on. -/
theorem resolverUsersAgree : Obligations.ResolverUsersAgree := by
  unfold Obligations.ResolverUsersAgree
  intro fmt pt s hlife
  have halive : s.blk.life ≠ .faulted := by simp [hlife]
  refine ⟨?_, fun hpresent hframing => exec_constructFmt_of_unsupported hlife
    (resolve_of_unrecognised_framing hpresent hframing)⟩
  rw [exec_resolve_of_alive halive, exec_capability_of_alive halive]
  cases hresolve : resolve fmt with
  | cfg fd =>
    obtain ⟨t, hexec, hconstructed⟩ := exec_constructFmt_of_cfg (pt := pt) hlife hresolve
    rw [resolveResponse_of_cfg hresolve, capabilityResponse_of_cfg hresolve]
    exact .inl ⟨fd, resolve_cfg hresolve, rfl, rfl, t, hexec, hconstructed.resp,
      hconstructed.life, hconstructed.cfgFd⟩
  | unsupported =>
    rw [resolveResponse_of_unsupported hresolve, capabilityResponse_of_unsupported hresolve]
    exact .inr ⟨rfl, rfl, exec_constructFmt_of_unsupported hlife hresolve⟩

end Sys2Proof.Proofs

/-! PROOFS. SUBMIT of a wrong length, and SUBMIT below the target. -/

namespace Sys2Proof.Proofs

open Sys2Proof Sys2Proof.Machine Sys2Proof.Safety

/-- A SUBMIT of any other length ends at the length check (41_packetizer.md R71). -/
theorem exec_submit_wrongLength {ts : Word32} {len : Word16} {samples : List Sample} {s : State}
    (hready : s.blk.life = .ready) (hlen : len.toNat ≠ 80) :
    exec (.submit ts len samples) s = .next (enterFault .contractLength len 0x05 s) := by
  rw [exec_submit, execSubmit, whenReady_of_ready hready]
  exact if_pos hlen

/-- Settles O28: the check on LIFE comes before the check on the length, and both before the append. -/
theorem submitWrongLengthFaults : Obligations.SubmitWrongLengthFaults := by
  unfold Obligations.SubmitWrongLengthFaults
  intro ts len samples s
  refine ⟨fun hready hlen => ?_, fun hlife => ?_⟩
  · rw [exec_submit_wrongLength hready hlen]
    rfl
  · rw [exec_submit, execSubmit, whenReady_of_unconstructed hlife]
    rfl

/-- Below the target SUBMIT is the append and NO_PACKET (41_packetizer.md R73), even for a counter that
wraps. -/
theorem exec_submit_below {ts : Word32} {len : Word16} {samples : List Sample} {s : State}
    (hready : s.blk.life = .ready) (hlen : len.toNat = 80)
    (hbelow : s.blk.counter.toNat + 1 < target s.blk.cfgFd) :
    exec (.submit ts len samples) s =
      respond .noPacket (s.setBlk (appendSubFrame ts samples s.blk)) := by
  have hcount : (appendSubFrame ts samples s.blk).counter.toNat < target s.blk.cfgFd :=
    (counter_succ_toNat_le s.blk.counter).trans_lt hbelow
  rw [exec_submit, execSubmit_of_ready hready hlen, countSubFrame]
  exact if_pos hcount

/-- Settles O26: `appendSubFrame` writes the counter, TS0 and 80 elements of the buffer, which the
invariants keep below index 240. -/
theorem submitBuffersSubFrame : Obligations.SubmitBuffersSubFrame := by
  unfold Obligations.SubmitBuffersSubFrame
  intro ts len samples s hready hlen hsamples hbelow
  refine ⟨⟨_, exec_submit_below hready hlen hbelow, rfl, rfl, rfl, rfl, fun k hk => ?_,
    fun a ha => read_appendSubFrame_outside hsamples ha, hready, rfl, rfl, rfl, rfl, rfl, rfl⟩,
    fun hinv => inv_occ_add_subFrame_le hinv hready⟩
  exact read_appendSubFrame_at (by rwa [hsamples])

end Sys2Proof.Proofs

/-! PROOFS. The responses of a sequence of SUBMITs (41_packetizer.md R76). -/

namespace Sys2Proof.Proofs

open Sys2Proof Sys2Proof.Machine Sys2Proof.Safety

/-! ## Sequences of commands -/

section Sequence

variable {i : Instr} {is : List Instr} {s t : State} {rs : List Response} {r : Response}

theorem performAll_cons_of_responds (hexec : exec i s = .next t) (hresp : t.resp = some r) :
    performAll (i :: is) s = (performAll is t).map fun q => (r :: q.1, q.2) := by
  rw [performAll, hexec]
  simp only [hresp]
  cases performAll is t <;> rfl

theorem performAll_cons_of_faults (hexec : exec i s = .next t) (hresp : t.resp = none) :
    performAll (i :: is) s = none := by
  rw [performAll, hexec]
  simp only [hresp]

theorem performAll_append_of_some {js : List Instr} (hall : performAll is s = some (rs, t)) :
    performAll (is ++ js) s = (performAll js t).map fun q => (rs ++ q.1, q.2) := by
  induction is generalizing s rs with
  | nil =>
    cases hall
    exact Option.map_id'.symm
  | cons i is ih =>
    obtain ⟨u, r, rs', hexec, hresp, hrest, rfl⟩ := performAll_cons_some hall
    rw [List.cons_append, performAll_cons_of_responds hexec hresp, ih hrest, Option.map_map]
    rfl

theorem performAll_length (hall : performAll is s = some (rs, t)) : rs.length = is.length := by
  induction is generalizing s rs with
  | nil =>
    cases hall
    rfl
  | cons i is ih =>
    obtain ⟨u, r, rs', _, _, hrest, rfl⟩ := performAll_cons_some hall
    rw [List.length_cons, ih hrest, List.length_cons]

/-- Each response of a sequence is that of the command at its place, performed after those before it. -/
theorem performAll_response_at {k : Nat} (hall : performAll is s = some (rs, t))
    (hget : rs[k]? = some r) : ∃ i u v, is[k]? = some i ∧
      performAll (is.take k) s = some (rs.take k, u) ∧ exec i u = .next v ∧ v.resp = some r := by
  induction is generalizing s rs k with
  | nil =>
    cases hall
    cases hget
  | cons i is ih =>
    obtain ⟨u, r', rs', hexec, hresp, hrest, rfl⟩ := performAll_cons_some hall
    cases k with
    | zero =>
      cases hget
      exact ⟨i, s, u, rfl, rfl, hexec, hresp⟩
    | succ k =>
      obtain ⟨j, v, w, hj, hbefore, hexec', hresp'⟩ := ih hrest hget
      refine ⟨j, v, w, hj, ?_, hexec', hresp'⟩
      rw [List.take_succ_cons, performAll_cons_of_responds hexec hresp, hbefore]
      rfl

end Sequence

/-! ## Responses of SUBMITs -/

/-- Each response to a sequence of SUBMITs from EMPTY is that of one SUBMIT to a block which holds what
the sub-frames before it left. -/
theorem submits_response_at {fs : List SubFrame} {s t : State} {rs : List Response} {k : Nat}
    {r : Response} (hinv : Inv s.blk) (hempty : s.blk.packetState = some .empty)
    (hwhole : wholeSubFrames fs) (hall : performAll (submits fs) s = some (rs, t))
    (hget : rs[k]? = some r) : ∃ f u v, fs[k]? = some f ∧ f.2.length = 80 ∧
      Buffering s.blk.cfgFd (fs.take k) u.blk ∧
      exec (.submit f.1 80 f.2) u = .next v ∧ v.resp = some r := by
  obtain ⟨i, u, v, hi, hbefore, hexec, hresp⟩ := performAll_response_at hall hget
  obtain ⟨f, hf, rfl⟩ : ∃ f, fs[k]? = some f ∧ .submit f.1 80 f.2 = i := by
    simpa [submits] using hi
  rw [submits, ← List.map_take] at hbefore
  exact ⟨f, u, v, hf, hwhole f (List.mem_of_getElem? hf),
    buffering_submits (buffering_of_empty hinv hempty)
      (fun g hg => hwhole g (List.mem_of_mem_take hg)) hbefore, hexec, hresp⟩

/-- A SUBMIT responds PACKET exactly when the sub-frames so far make whole groups. -/
theorem isPacket_iff_of_buffering {fd : Word16} {done : List SubFrame} {f : SubFrame} {s t : State}
    {r : Response} (hbuf : Buffering fd done s.blk) (hwhole : f.2.length = 80)
    (hexec : exec (.submit f.1 80 f.2) s = .next t) (hresp : t.resp = some r) :
    isPacket r = true ↔ (done.length + 1) % target fd = 0 := by
  have hcounter : t.blk.counter.toNat = (done.length + 1) % target fd := by
    simpa using (buffering_submit hbuf hwhole hexec hresp).counter
  rw [← hcounter]
  rcases submit_responds hbuf.inv hbuf.life hexec hresp with
    ⟨_, rfl, hblk⟩ | ⟨_, hpacket, next, hblk⟩
  · rw [hblk, appendSubFrame_counter, inv_counter_succ hbuf.inv hbuf.life]
    simp [isPacket]
  · rw [hblk, clearPacket_counter]
    simp [hpacket]

/-- In a list where `p` holds at the multiples of `n`, counting from 1, it holds `length / n` times. -/
theorem countP_eq_length_div {α : Type} {p : α → Bool} {n : Nat} {l : List α}
    (hplaces : ∀ k x, l[k]? = some x → (p x = true ↔ (k + 1) % n = 0)) :
    l.countP p = l.length / n := by
  induction l using List.reverseRecOn with
  | nil => simp
  | append_singleton l x ih =>
    have hlast : p x = true ↔ n ∣ l.length + 1 := by
      rw [hplaces l.length x (by simp), Nat.dvd_iff_mod_eq_zero]
    have hinit : l.countP p = l.length / n := ih fun k y hy => by
      obtain ⟨hk, _⟩ := List.getElem?_eq_some_iff.1 hy
      exact hplaces k y (by rw [List.getElem?_append_left hk, hy])
    simp only [List.countP_append, List.countP_singleton, List.length_append, List.length_singleton,
      Nat.succ_div, hinit, hlast]

/-- Settles O49: the response at each place is that of one SUBMIT to a block that `Buffering` describes;
the count follows from the places. -/
theorem submitCountLaw : Obligations.SubmitCountLaw := by
  unfold Obligations.SubmitCountLaw
  intro fs s t rs hinv hempty hwhole hall
  have hlength : rs.length = fs.length := by simpa [submits] using performAll_length hall
  have hend := buffering_submits (buffering_of_empty hinv hempty) hwhole hall
  have hplaces : ∀ k r, rs[k]? = some r →
      (isPacket r = true ↔ (k + 1) % target s.blk.cfgFd = 0) := by
    intro k r hget
    obtain ⟨f, u, v, hf, hfwhole, hbuf, hexec, hresp⟩ :=
      submits_response_at hinv hempty hwhole hall hget
    obtain ⟨hk, _⟩ := List.getElem?_eq_some_iff.1 hf
    rw [isPacket_iff_of_buffering hbuf hfwhole hexec hresp, List.length_take_of_le hk.le]
  refine ⟨hlength, hlength ▸ countP_eq_length_div hplaces, hplaces, hend.counter, hend.cfgFd,
    fun p hp => ?_⟩
  obtain ⟨k, hget⟩ := List.mem_iff_getElem?.1 hp
  obtain ⟨f, u, v, _, _, hbuf, hexec, hresp⟩ := submits_response_at hinv hempty hwhole hall hget
  obtain ⟨hbytes, _⟩ := packetFieldsAgree _ _ _ p hexec hresp
  rw [hbytes, hbuf.cfgFd]

end Sys2Proof.Proofs

/-! PROOFS. The content of a packet (41_packetizer.md R77). -/

namespace Sys2Proof.Proofs

open Sys2Proof Sys2Proof.Machine Sys2Proof.Safety

/-- What the block holds part of the way through a group that began from the EMPTY block `start`: the
samples of the sub-frames `done`, in order, beside the Codec Core and the configuration of `start`. -/
structure Filling (start : Block) (done : List SubFrame) (b : Block) : Prop where
  buffering : Buffering start.cfgFd done b
  counter : b.counter.toNat = done.length
  cfgPt : b.cfgPt = start.cfgPt
  cs : b.cs = start.cs
  content : memRead b.buf 0 b.occ = some (done.flatMap fun g => g.2)

theorem filling_of_empty {b : Block} (hinv : Inv b) (hempty : b.packetState = some .empty) :
    Filling b [] b := by
  obtain ⟨_, hcounter⟩ := (packetState_empty_iff b).1 hempty
  refine ⟨buffering_of_empty hinv hempty, by simp [hcounter], rfl, rfl, ?_⟩
  simp [occ_eq, hcounter, memRead]

/-- The append puts its samples behind those already buffered (41_packetizer.md R73). -/
theorem memRead_appendSubFrame {ts : Word32} {samples held : List Sample} {b : Block}
    (hlen : samples.length = 80) (hheld : memRead b.buf 0 b.occ = some held) :
    memRead (appendSubFrame ts samples b).buf 0 (b.occ + 80) = some (held ++ samples) := by
  have hbelow : memRead (appendSubFrame ts samples b).buf 0 b.occ = some held := by
    rw [← hheld]
    refine memRead_congr _ _ _ _ fun k hk => ?_
    rw [Nat.zero_add, read_appendSubFrame_below hk]
  refine memRead_append _ _ _ _ _ _ hbelow ?_
  rw [Nat.zero_add, ← hlen]
  exact memRead_memWrite _ _ _

section Group

variable {start : Block} {done : List SubFrame} {f : SubFrame} {s : State}

/-- A sub-frame below the target buffers, with NO_PACKET, and its samples come last. -/
theorem filling_submit (hfill : Filling start done s.blk) (hwhole : f.2.length = 80)
    (hbelow : done.length + 1 < target start.cfgFd) :
    ∃ t, exec (.submit f.1 80 f.2) s = .next t ∧ t.resp = some .noPacket ∧
      Filling start (done ++ [f]) t.blk := by
  obtain ⟨hbuf, hcounter, hpt, hcs, hcontent⟩ := hfill
  have hexec := exec_submit_below (ts := f.1) (samples := f.2) (len := 80) hbuf.life rfl
    (by rwa [hcounter, hbuf.cfgFd])
  have hsucc := inv_counter_succ hbuf.inv hbuf.life
  refine ⟨_, hexec, rfl, buffering_submit hbuf hwhole hexec rfl, ?_, hpt, hcs, ?_⟩
  · exact hsucc.trans (by rw [hcounter, List.length_append, List.length_singleton])
  · have hocc : (appendSubFrame f.1 f.2 s.blk).occ = s.blk.occ + 80 := by
      rw [occ_eq, occ_eq, appendSubFrame_counter, hsucc, Nat.succ_mul]
    simpa [hocc] using memRead_appendSubFrame (ts := f.1) hwhole hcontent

/-- Every sub-frame of a group but the last is answered NO_PACKET. -/
theorem filling_submits {fs : List SubFrame} (hfill : Filling start done s.blk)
    (hwhole : wholeSubFrames fs) (hbelow : done.length + fs.length < target start.cfgFd) :
    ∃ t, performAll (submits fs) s = some (List.replicate fs.length .noPacket, t) ∧
      Filling start (done ++ fs) t.blk := by
  induction fs generalizing done s with
  | nil => exact ⟨s, rfl, by rwa [List.append_nil]⟩
  | cons f fs ih =>
    obtain ⟨hf, hfs⟩ := List.forall_mem_cons.1 hwhole
    rw [List.length_cons] at hbelow
    obtain ⟨u, hexec, hresp, hfill'⟩ := filling_submit hfill hf (by omega)
    obtain ⟨t, hall, hend⟩ := ih hfill' hfs (by rw [List.length_append, List.length_singleton]; omega)
    refine ⟨t, ?_, by rwa [List.append_cons]⟩
    rw [submits, List.map_cons, performAll_cons_of_responds hexec hresp]
    exact congrArg (Option.map _) hall

/-- The last sub-frame of a group gives the Codec Core the group's samples in order
(41_packetizer.md R74). -/
theorem filling_exec_last {c : Config.CodecState} (hfill : Filling start done s.blk)
    (hcore : start.cs = some c) (hwhole : f.2.length = 80)
    (hfull : done.length + 1 = target start.cfgFd) :
    exec (.submit f.1 80 f.2) s =
      finishPacket (Config.codecEncode c ((done ++ [f]).flatMap fun g => g.2))
        (s.setBlk (appendSubFrame f.1 f.2 s.blk)) := by
  obtain ⟨hbuf, hcounter, _, hcs, hcontent⟩ := hfill
  have hfull' : s.blk.counter.toNat + 1 = target s.blk.cfgFd := by rw [hcounter, hbuf.cfgFd, hfull]
  have hsize : pktSamples s.blk.cfgFd = s.blk.occ + 80 := by
    rw [pktSamples_eq, ← hfull', occ_eq, Nat.succ_mul]
  refine exec_submit_full hbuf.inv hbuf.life hfull' rfl (hcs.trans hcore) ?_
  rw [hsize, memRead_appendSubFrame hwhole hcontent]
  simp

end Group

/-- Later sub-frames of a group leave the timestamp of its first in TS0 (41_packetizer.md R72). -/
theorem filling_append_ts0 {start : Block} {f : SubFrame} {fs : List SubFrame} {b : Block}
    {ts : Word32} {samples : List Sample} (hfill : Filling start (f :: fs) b) :
    (appendSubFrame ts samples b).ts0 = f.1 := by
  have hcounter : b.counter ≠ 0 := by
    intro hzero
    have hlength := hfill.counter
    simp [hzero] at hlength
  obtain ⟨g, hget, hts0⟩ := hfill.buffering.ts0 hcounter
  rw [hfill.counter, Nat.sub_self] at hget
  cases hget
  rw [appendSubFrame_ts0, if_neg hcounter, hts0]

/-- A whole group from EMPTY is answered NO_PACKET up to its last sub-frame, which gives the Codec Core
the group's samples. -/
theorem performAll_group {fs : List SubFrame} {l : SubFrame} {s : State} {c : Config.CodecState}
    (hinv : Inv s.blk) (hempty : s.blk.packetState = some .empty) (hcore : s.blk.cs = some c)
    (hwhole : wholeSubFrames (fs ++ [l])) (hlength : (fs ++ [l]).length = target s.blk.cfgFd) :
    ∃ u, Filling s.blk fs u.blk ∧
      exec (.submit l.1 80 l.2) u =
        finishPacket (Config.codecEncode c ((fs ++ [l]).flatMap fun g => g.2))
          (u.setBlk (appendSubFrame l.1 l.2 u.blk)) ∧
      performAll (submits (fs ++ [l])) s = (performAll (submits [l]) u).map
        fun q => (List.replicate fs.length .noPacket ++ q.1, q.2) := by
  obtain ⟨hinit, hlast⟩ := List.forall_mem_append.1 hwhole
  rw [List.length_append, List.length_singleton] at hlength
  obtain ⟨u, hall, hfill⟩ := filling_submits (filling_of_empty hinv hempty) hinit
    (by rw [List.length_nil]; omega)
  rw [List.nil_append] at hfill
  refine ⟨u, hfill, filling_exec_last hfill hcore (hlast l (List.mem_singleton_self l)) hlength, ?_⟩
  rw [submits, List.map_append]
  exact performAll_append_of_some hall

/-- Settles O50: after the NO_PACKETs of a group's earlier sub-frames, the three cases of `finishPacket`
are the core's three answers. -/
theorem packetContentLaw : Obligations.PacketContentLaw := by
  unfold Obligations.PacketContentLaw
  intro f fs s c hinv hempty hcore hwhole hlength
  obtain ⟨hready, _⟩ := (packetState_empty_iff _).1 hempty
  rcases fs.eq_nil_or_concat' with rfl | ⟨gs, l, rfl⟩
  · rcases inv_target hinv hready with h | h <;> simp [h] at hlength
  rw [← List.cons_append] at hwhole hlength ⊢
  obtain ⟨u, hfill, hexec, hgroup⟩ := performAll_group hinv hempty hcore hwhole hlength
  have hfd : (appendSubFrame l.1 l.2 u.blk).cfgFd = s.blk.cfgFd := hfill.buffering.cfgFd
  rw [hgroup, List.length_append, List.length_singleton]
  cases hanswer : Config.codecEncode c ((f :: gs ++ [l]).flatMap fun g => g.2) with
  | fail =>
    rw [hanswer, finishPacket_fail] at hexec
    exact congrArg (Option.map _) (performAll_cons_of_faults hexec rfl)
  | ok c' bytes speech =>
    rw [hanswer] at hexec
    dsimp only
    split_ifs with hsize <;> rw [← hfd] at hsize
    · rw [finishPacket_emits (s := u.setBlk (appendSubFrame l.1 l.2 u.blk)) hsize, State.setBlk_blk,
        hfd, filling_append_ts0 hfill, appendSubFrame_cfgPt, hfill.cfgPt] at hexec
      exact ⟨_, congrArg (Option.map _) (performAll_cons_of_responds (is := []) hexec rfl),
        (packetState_empty_iff _).2 ⟨hfill.buffering.life, rfl⟩, rfl⟩
    · rw [finishPacket_wrongSize (s := u.setBlk (appendSubFrame l.1 l.2 u.blk)) hsize] at hexec
      exact congrArg (Option.map _) (performAll_cons_of_faults hexec rfl)

end Sys2Proof.Proofs

/-! PROOFS. RESET and the timestamps after it (41_packetizer.md R79). -/

namespace Sys2Proof.Proofs

open Sys2Proof Sys2Proof.Machine Sys2Proof.Safety

/-- A timestamp that the block may still put into a packet (10_state.md R19). -/
def Holds (b : Block) (ts : Word32) : Prop := b.life = .ready ∧ b.counter ≠ 0 ∧ b.ts0 = ts

/-- One of the commands is a SUBMIT with this timestamp. -/
def Supplies (is : List Instr) (ts : Word32) : Prop :=
  ∃ len samples, .submit ts len samples ∈ is

/-- The state `t` after a command shows the timestamp: the block holds it, or the response is a packet
that carries it. -/
def Shows (t : State) (ts : Word32) : Prop :=
  Holds t.blk ts ∨ ∃ p, t.resp = some (.packet p) ∧ p.ts = ts

/-- TS0 after the append is the timestamp given or the one held before (41_packetizer.md R72). -/
theorem appendSubFrame_ts0_source {ts : Word32} {samples : List Sample} {b : Block}
    (hready : b.life = .ready) : (appendSubFrame ts samples b).ts0 = ts ∨
      Holds b (appendSubFrame ts samples b).ts0 := by
  by_cases hcounter : b.counter = 0
  · exact .inl (if_pos hcounter)
  · exact .inr ⟨hready, hcounter, (if_neg hcounter).symm⟩

/-- No command but SUBMIT brings a timestamp into the block or into a packet. -/
theorem shown_ts_held_or_supplied {i : Instr} {s t : State} {ts : Word32} (hexec : exec i s = .next t)
    (hshows : Shows t ts) : Holds s.blk ts ∨ ∃ len samples, i = .submit ts len samples := by
  cases exec_effect hexec with
  | noInstance | alreadyConstructed | wrongLength | constructed | destroyed | resetDone =>
    simp [Shows, Holds] at hshows
  | unsupported _ hlife => simp [Shows, Holds, hlife] at hshows
  | reported _ _ r hreports =>
    rcases hshows with hheld | ⟨p, hpacket, _⟩
    · exact .inl hheld
    · obtain rfl : r = .packet p := by simpa using hpacket
      cases hreports
  | submitted ts' len samples hi hready _ heffect =>
    have hts : t.blk.ts0 = ts := by
      rcases hshows with ⟨_, _, hts⟩ | ⟨p, hpacket, hts⟩
      · exact hts
      · obtain ⟨_, _, _, hpts, _⟩ := packetFieldsAgree i s t p hexec hpacket
        rw [← hpts, hts]
    obtain ⟨_, _, _, hts0, _⟩ := submitEffect_frame heffect
    obtain rfl : (appendSubFrame ts' samples s.blk).ts0 = ts := hts0.symm.trans hts
    rcases appendSubFrame_ts0_source (ts := ts') (samples := samples) hready with hsupplied | hheld
    · exact .inr ⟨len, samples, by rw [hi, hsupplied]⟩
    · exact .inl hheld

/-- A packet's timestamp was held by the block before the commands, or one of them supplied it. -/
theorem packet_ts_held_or_supplied {is : List Instr} {s t : State} {rs : List Response} {p : Packet}
    (hall : performAll is s = some (rs, t)) (hp : .packet p ∈ rs) :
    Holds s.blk p.ts ∨ Supplies is p.ts := by
  induction is generalizing s rs with
  | nil =>
    cases hall
    cases hp
  | cons i is ih =>
    obtain ⟨u, r, rs', hexec, hresp, hrest, rfl⟩ := performAll_cons_some hall
    have hfirst (hshows : Shows u p.ts) : Holds s.blk p.ts ∨ Supplies (i :: is) p.ts :=
      (shown_ts_held_or_supplied hexec hshows).imp_right fun ⟨len, samples, hi⟩ =>
        ⟨len, samples, hi ▸ List.mem_cons_self⟩
    rcases List.mem_cons.1 hp with rfl | hlater
    · exact hfirst (.inr ⟨p, hresp, rfl⟩)
    · rcases ih hrest hlater with hheld | ⟨len, samples, hmem⟩
      · exact hfirst (.inl hheld)
      · exact .inr ⟨len, samples, List.mem_cons_of_mem i hmem⟩

/-- A sequence that begins with RESET runs its other commands from the block that RESET leaves. -/
theorem performAll_reset_cons {is : List Instr} {s t : State} {rs : List Response}
    (hready : s.blk.life = .ready) (hall : performAll (.reset :: is) s = some (rs, t)) :
    ∃ u rs', u.blk = resetPacketizer s.blk ∧ performAll is u = some (rs', t) ∧
      rs = .ok .plain :: rs' := by
  obtain ⟨u, r, rs', hexec, hresp, hrest, rfl⟩ := performAll_cons_some hall
  rw [exec_reset, whenReady_of_ready hready] at hexec
  cases hexec
  cases hresp
  exact ⟨_, rs', rfl, hrest, rfl⟩

/-- A packet carries the timestamp of the first sub-frame of its group, groups counted from EMPTY. -/
theorem packet_ts_of_group {fs : List SubFrame} {s t : State} {rs : List Response} {k : Nat}
    {p : Packet} (hinv : Inv s.blk) (hempty : s.blk.packetState = some .empty)
    (hwhole : wholeSubFrames fs) (hall : performAll (submits fs) s = some (rs, t))
    (hget : rs[k]? = some (.packet p)) :
    ∃ f, fs[k + 1 - target s.blk.cfgFd]? = some f ∧ p.ts = f.1 := by
  obtain ⟨f, u, v, hf, _, hbuf, hexec, hresp⟩ := submits_response_at hinv hempty hwhole hall hget
  obtain ⟨hk, hfk⟩ := List.getElem?_eq_some_iff.1 hf
  obtain ⟨_, _, _, hpts, _⟩ := packetFieldsAgree _ _ _ p hexec hresp
  rcases submit_responds hbuf.inv hbuf.life hexec hresp with ⟨_, hbelow, _⟩ | ⟨hfull, _, next, hblk⟩
  · cases hbelow
  obtain ⟨g, hg, hts0⟩ := buffering_append_ts0 hbuf f
  rw [List.length_take_of_le hk.le, ← hfk, List.take_concat_get'] at hg
  obtain ⟨hlt, _⟩ := List.getElem?_eq_some_iff.1 hg
  refine ⟨g, ?_, by rw [hpts, hblk, clearPacket_ts0, hts0]⟩
  rw [← hbuf.cfgFd, ← hfull, Nat.add_sub_add_right, ← hg]
  exact (List.getElem?_take_of_lt (by omega)).symm

/-- Settles O51: RESET leaves the block EMPTY, so it holds no timestamp and the groups are counted from
there. -/
theorem resetLaw : Obligations.ResetLaw := by
  unfold Obligations.ResetLaw
  refine ⟨fun fs s t rs hinv hready hwhole hall => ?_, fun is s t rs hready hall p hp => ?_⟩
  · obtain ⟨u, rs', hblk, hrest, rfl⟩ := performAll_reset_cons hready hall
    have hinv' : Inv u.blk := hblk ▸ inv_resetPacketizer hinv hready
    have hempty : u.blk.packetState = some .empty := by
      rw [hblk, packetState_empty_iff]
      exact ⟨hready, rfl⟩
    refine ⟨rs', rfl, fun k p hget => ?_⟩
    have hgroup := packet_ts_of_group hinv' hempty hwhole hrest hget
    rwa [hblk, resetPacketizer_cfgFd] at hgroup
  · obtain ⟨u, rs', hblk, hrest, rfl⟩ := performAll_reset_cons hready hall
    have hlater : .packet p ∈ rs' := by simpa using hp
    rcases packet_ts_held_or_supplied hrest hlater with ⟨_, hcounter, _⟩ | ⟨len, samples, hmem⟩
    · rw [hblk] at hcounter
      exact absurd rfl hcounter
    · exact ⟨p.ts, len, samples, hmem, rfl⟩

end Sys2Proof.Proofs

/-! PROOFS. The queries (42_queries.md): what each reports, and that none is seen by a later command. -/

namespace Sys2Proof.Proofs

open Sys2Proof Sys2Proof.Machine Sys2Proof.Safety

/-- A command that needs an instance begins with that check, under its own word. -/
theorem exec_eq_whenReady {i : Instr} (hneeds : needsInstance i = true) (s : State) :
    ∃ cw k, i.word = cw ∧ exec i s = whenReady cw s k := by
  cases i with
  | destroy => exact ⟨_, _, word_destroy, exec_destroy⟩
  | submit => exact ⟨_, _, word_submit _ _ _, exec_submit⟩
  | reset => exact ⟨_, _, word_reset, exec_reset⟩
  | qRate => exact ⟨_, _, word_qRate, exec_qRate⟩
  | qChannels => exact ⟨_, _, word_qChannels, exec_qChannels⟩
  | qNext => exact ⟨_, _, word_qNext, exec_qNext⟩
  | qMax => exact ⟨_, _, word_qMax, exec_qMax⟩
  | qBitrate => exact ⟨_, _, word_qBitrate, exec_qBitrate⟩
  | constructCfg | constructLegacy | constructFmt | qName | resolve | capability => cases hneeds

/-- Without an instance, a command that needs one enters F_NO_INSTANCE with its own opcode and word
(60_exceptions.md R96, R100). -/
theorem exec_needsInstance_of_unconstructed {i : Instr} {s : State} (hneeds : needsInstance i = true)
    (hlife : s.blk.life = .unconstructed) :
    exec i s = .next (faultState 2 i.opc (i.word.setWidth 16) s) := by
  obtain ⟨_, k, rfl, hexec⟩ := exec_eq_whenReady hneeds s
  rw [hexec, whenReady_of_unconstructed hlife, enterFault, Instr.opcField_word]
  rfl

/-! ## What each query reports -/

section Reports

variable {s : State} (hready : s.blk.life = .ready)
include hready

theorem exec_qRate_of_ready : exec .qRate s = .next (responded (.ok (.value 8000)) s) :=
  whenReady_of_ready hready

theorem exec_qChannels_of_ready : exec .qChannels s = .next (responded (.ok (.value 1)) s) :=
  whenReady_of_ready hready

theorem exec_qNext_of_ready : exec .qNext s = .next (responded (.ok (.value
    (BitVec.ofNat 32 (target s.blk.cfgFd - s.blk.counter.toNat)))) s) :=
  whenReady_of_ready hready

theorem exec_qMax_of_ready : exec .qMax s = .next (responded (.ok (.value
    (BitVec.ofNat 32 (target s.blk.cfgFd)))) s) :=
  whenReady_of_ready hready

theorem exec_qBitrate_of_ready : exec .qBitrate s = .next (responded (.ok (.value
    (BitVec.ofNat 32 (bitrate s.blk.cfgFd)))) s) := by
  rw [exec_qBitrate, whenReady_of_ready hready, respondValue]
  rfl

end Reports

theorem exec_qName_of_alive {s : State} (hlife : s.blk.life ≠ .faulted) :
    exec .qName s = .next (responded (.ok (.name Config.codecName)) s) :=
  whenAlive_of_alive hlife

/-- EVERY QUERY in READY responds and does nothing else (42_queries.md R87). -/
theorem exec_query_of_ready {q : Instr} {s : State} (hquery : isQuery q = true)
    (hready : s.blk.life = .ready) : ∃ r, exec q s = .next (responded r s) := by
  cases q with
  | qRate => exact ⟨_, exec_qRate_of_ready hready⟩
  | qChannels => exact ⟨_, exec_qChannels_of_ready hready⟩
  | qNext => exact ⟨_, exec_qNext_of_ready hready⟩
  | qMax => exact ⟨_, exec_qMax_of_ready hready⟩
  | qBitrate => exact ⟨_, exec_qBitrate_of_ready hready⟩
  | qName => exact ⟨_, exec_qName_of_alive (by simp [hready])⟩
  | constructCfg | constructLegacy | constructFmt | destroy | submit | reset | resolve | capability =>
    cases hquery

/-! ## No command reads the last response -/

/-- EVERY COMMAND computes from the block alone, and each of its next states has a response record of
its own in place of the last one. -/
theorem exec_setResp (i : Instr) (s : State) (x : Option Response) :
    exec i (s.setResp x) = exec i s := by
  cases i <;> rfl

/-- So a sequence of one or more commands does not read it either. -/
theorem performAll_setResp {is : List Instr} (hne : is ≠ []) (s : State) (x : Option Response) :
    performAll is (s.setResp x) = performAll is s := by
  cases is with
  | nil => contradiction
  | cons i is => rw [performAll, performAll, exec_setResp]

/-- Queries in READY all respond, and of the state they change the last response alone. -/
theorem performAll_queries {qs : List Instr} {s : State} (hready : s.blk.life = .ready)
    (hqueries : ∀ q ∈ qs, isQuery q = true) :
    ∃ rs x, performAll qs s = some (rs, s.setResp x) := by
  induction qs generalizing s with
  | nil => exact ⟨[], s.resp, rfl⟩
  | cons q qs ih =>
    obtain ⟨hq, hqs⟩ := List.forall_mem_cons.1 hqueries
    obtain ⟨r, hexec⟩ := exec_query_of_ready hq hready
    obtain ⟨rs, x, hrest⟩ := ih (s := responded r s) hready hqs
    exact ⟨r :: rs, x, by rw [performAll_cons_of_responds hexec rfl, hrest]; rfl⟩

/-- Settles O38: the queries change the last response alone, which no command reads. -/
theorem queriesChangeNothing : Obligations.QueriesChangeNothing := by
  unfold Obligations.QueriesChangeNothing
  intro qs s hready hqueries
  obtain ⟨rs, x, hall⟩ := performAll_queries hready hqueries
  refine ⟨rs, s.setResp x, hall, performAll_length hall, rfl, fun is hne => ?_⟩
  rw [performAll_append_of_some hall, performAll_setResp hne]

/-! ## The statements of the single queries -/

/-- Settles O33: both values are constants of the block. -/
theorem rateAndChannelQueries : Obligations.RateAndChannelQueries := by
  unfold Obligations.RateAndChannelQueries
  intro s
  exact ⟨fun b => ⟨decode_of_rsvField (by decide), decode_of_rsvField (by decide)⟩,
    malformedWordFaults_all _, malformedWordFaults_all _,
    fun hready => ⟨exec_qRate_of_ready hready, exec_qChannels_of_ready hready⟩,
    fun hlife => ⟨exec_needsInstance_of_unconstructed rfl hlife,
      exec_needsInstance_of_unconstructed rfl hlife⟩⟩

/-- The target of any 16-bit frame duration fits the 32 bits of `VALUE`. -/
theorem target_lt (fd : Word16) : target fd < 2 ^ 32 :=
  calc target fd ≤ fd.toNat := Nat.div_le_self _ _
    _ < 2 ^ 16 := fd.isLt
    _ < 2 ^ 32 := by decide

/-- `VALUE` holds a count of sub-frames without loss. -/
theorem value_toNat_of_le_target {n : Nat} {fd : Word16} (hle : n ≤ target fd) :
    (BitVec.ofNat 32 n).toNat = n :=
  Nat.mod_eq_of_lt (hle.trans_lt (target_lt fd))

/-- RESET and a packet both clear the counter (41_packetizer.md R75, R78). -/
theorem counter_zero_of_cleared {i : Instr} {s t : State} (hexec : exec i s = .next t)
    (hready : t.blk.life = .ready) (hcleared : i = .reset ∨ ∃ p, t.resp = some (.packet p)) :
    t.blk.counter = 0 := by
  rcases hcleared with rfl | ⟨p, hpacket⟩
  · rcases whenReady_next (exec_reset ▸ hexec) with ⟨_, hreset⟩ | ⟨_, rfl⟩
    · cases hreset
      rfl
    · cases hready
  · cases exec_effect hexec with
    | noInstance | alreadyConstructed | wrongLength | constructed | unsupported | destroyed
    | resetDone => simp at hpacket
    | reported _ _ r hreports =>
      obtain rfl : r = .packet p := by simpa using hpacket
      cases hreports
    | submitted ts len samples _ _ _ heffect =>
      cases heffect with
      | buffered | codecFails | wrongSize => simp at hpacket
      | emitted => rfl

/-- Settles O34: the value is the target less the counter, and the counter is below the target within
the invariants, and 0 in EMPTY, after RESET and after a packet. -/
theorem nextQueryReportsRemaining : Obligations.NextQueryReportsRemaining := by
  unfold Obligations.NextQueryReportsRemaining
  intro s
  refine ⟨fun b => decode_of_rsvField (by decide), malformedWordFaults_all _, fun hready => ?_,
    exec_needsInstance_of_unconstructed rfl, fun i t hexec hready hcleared => ?_⟩
  · have hvalue := value_toNat_of_le_target (Nat.sub_le (target s.blk.cfgFd) s.blk.counter.toNat)
    refine ⟨_, exec_qNext_of_ready hready, hvalue, fun hinv => ?_, fun hempty => ?_⟩
    · have hcount := hinv.counting hready
      omega
    · obtain ⟨_, hcounter⟩ := (packetState_empty_iff _).1 hempty
      rw [hvalue, hcounter]
      rfl
  · refine ⟨_, exec_qNext_of_ready hready, ?_⟩
    rw [value_toNat_of_le_target (Nat.sub_le _ _), counter_zero_of_cleared hexec hready hcleared]
    rfl

/-- Settles O35: the value is a function of the configured frame duration alone. -/
theorem maxQueryReportsTarget : Obligations.MaxQueryReportsTarget := by
  unfold Obligations.MaxQueryReportsTarget
  intro s
  refine ⟨fun b => decode_of_rsvField (by decide), malformedWordFaults_all _, fun hready => ?_,
    exec_needsInstance_of_unconstructed rfl⟩
  refine ⟨_, exec_qMax_of_ready hready, value_toNat_of_le_target le_rfl, fun hfd => ?_, fun hfd => ?_⟩
  · rw [hfd]
    rfl
  · rw [hfd]
    rfl

/-- Settles O36: the value is `bitrate` of the configured frame duration. -/
theorem bitrateQueryReportsFloor : Obligations.BitrateQueryReportsFloor := by
  unfold Obligations.BitrateQueryReportsFloor
  intro s
  exact ⟨fun b => decode_of_rsvField (by decide), malformedWordFaults_all _, exec_qBitrate_of_ready,
    exec_needsInstance_of_unconstructed rfl⟩

/-- Settles O37: Q_NAME checks only that the block is not FAULTED. -/
theorem nameQueryReportsConstant : Obligations.NameQueryReportsConstant := by
  unfold Obligations.NameQueryReportsConstant
  intro s
  exact ⟨fun b => decode_of_rsvField (by decide), malformedWordFaults_all _, exec_qName_of_alive⟩

end Sys2Proof.Proofs

/-! PROOFS. The three construction forms and DESTROY (43_lifecycle.md R89 to R95). -/

namespace Sys2Proof.Proofs

open Sys2Proof Sys2Proof.Machine Sys2Proof.Safety

/-! ## The construction forms from UNCONSTRUCTED -/

section Construct

variable {pt : Byte} {s : State} (hlife : s.blk.life = .unconstructed)
include hlife

theorem exec_constructLegacy_of_unconstructed {rate : Word32} {ch : Byte} {fd : Word16} :
    exec (.constructLegacy pt rate ch fd) s =
      constructIf (validConfig fd.toNat rate.toNat ch.toNat) fd pt s :=
  whenUnconstructed_of_unconstructed hlife

/-- An explicit Configuration is a legacy descriptor whose rate and channel count are the fixed ones
(43_lifecycle.md R88). -/
theorem exec_constructLegacy_eq_constructCfg {fd : Word16} :
    exec (.constructLegacy pt 8000 1 fd) s = exec (.constructCfg pt fd) s := by
  rw [exec_constructLegacy_of_unconstructed hlife, exec_constructCfg,
    whenUnconstructed_of_unconstructed hlife]
  rfl

theorem exec_constructLegacy_of_valid {rate : Word32} {ch : Byte} {fd : Word16}
    (hvalid : (fd.toNat = 20 ∨ fd.toNat = 30) ∧ rate.toNat = 8000 ∧ ch.toNat = 1) :
    exec (.constructLegacy pt rate ch fd) s =
      .next ((construct fd pt s).setResp (some (.ok .plain))) := by
  rw [exec_constructLegacy_of_unconstructed hlife, (validConfig_iff _ _ _).2 hvalid]
  rfl

theorem exec_constructLegacy_of_invalid {rate : Word32} {ch : Byte} {fd : Word16}
    (hinvalid : ¬ ((fd.toNat = 20 ∨ fd.toNat = 30) ∧ rate.toNat = 8000 ∧ ch.toNat = 1)) :
    exec (.constructLegacy pt rate ch fd) s = .next (responded .unsupported s) := by
  rw [exec_constructLegacy_of_unconstructed hlife,
    Bool.eq_false_iff.2 (mt (validConfig_iff _ _ _).1 hinvalid)]
  rfl

theorem exec_constructCfg_of_valid {fd : Word16} (hfd : fd.toNat = 20 ∨ fd.toNat = 30) :
    exec (.constructCfg pt fd) s = .next ((construct fd pt s).setResp (some (.ok .plain))) := by
  rw [← exec_constructLegacy_eq_constructCfg hlife,
    exec_constructLegacy_of_valid hlife ⟨hfd, rfl, rfl⟩]

theorem exec_constructCfg_of_invalid {fd : Word16} (hfd : ¬ (fd.toNat = 20 ∨ fd.toNat = 30)) :
    exec (.constructCfg pt fd) s = .next (responded .unsupported s) := by
  rw [← exec_constructLegacy_eq_constructCfg hlife,
    exec_constructLegacy_of_invalid hlife fun hvalid => hfd hvalid.1]

/-- The resolver answers valid frame durations alone, so CONSTRUCT_FMT need not check its answer. -/
theorem exec_constructFmt_eq_constructCfg {f : FormatDescriptor} {fd : Word16}
    (hresolve : resolve f = .cfg fd) :
    exec (.constructFmt pt f) s = exec (.constructCfg pt fd) s := by
  have hfd : fd.toNat = 20 ∨ fd.toNat = 30 :=
    (resolve_cfg hresolve).imp (congrArg BitVec.toNat) (congrArg BitVec.toNat)
  rw [exec_constructCfg_of_valid hlife hfd, exec_constructFmt,
    whenUnconstructed_of_unconstructed hlife, hresolve]
  rfl

end Construct

/-- RESOLVE shows a host what the resolver answers (40_format_resolver.md R64). -/
theorem resolve_of_exec_resolve {f : FormatDescriptor} {fd : Word16} {s : State}
    (hlife : s.blk.life ≠ .faulted)
    (hexec : exec (.resolve f) s = .next (responded (.ok (.resFd fd)) s)) :
    resolve f = .cfg fd := by
  rw [exec_resolve_of_alive hlife] at hexec
  cases hresolve : resolve f with
  | cfg fd' =>
    rw [resolveResponse_of_cfg hresolve] at hexec
    cases hexec
    rfl
  | unsupported =>
    rw [resolveResponse_of_unsupported hresolve] at hexec
    cases hexec

/-- Settles O21: the checks of the other two forms come to that of CONSTRUCT_CFG, and what follows is
one construction step. -/
theorem constructionFormsEquivalent : Obligations.ConstructionFormsEquivalent := by
  unfold Obligations.ConstructionFormsEquivalent
  intro p f fmt s hlife
  have halive : s.blk.life ≠ .faulted := by simp [hlife]
  exact ⟨exec_constructLegacy_eq_constructCfg hlife, fun hexec =>
    exec_constructFmt_eq_constructCfg hlife (resolve_of_exec_resolve halive hexec)⟩

/-! ## What a construction that responds has done -/

/-- EVERY CONSTRUCTION that responds started in UNCONSTRUCTED, and either took the construction step
(43_lifecycle.md R91) or wrote no register. -/
theorem construction_responds {i : Instr} {s t : State} {r : Response} (hi : constructs i = true)
    (hexec : exec i s = .next t) (hresp : t.resp = some r) :
    s.blk.life = .unconstructed ∧
      ((∃ fd pt, r = .ok .plain ∧ Constructed fd pt s t) ∨
        (r = .unsupported ∧ t = responded .unsupported s)) := by
  cases exec_effect hexec with
  | noInstance | alreadyConstructed | wrongLength => cases hresp
  | constructed _ hlife fd pt =>
    exact ⟨hlife, .inl ⟨fd, pt, (Option.some.inj hresp).symm, constructed_construct fd pt s⟩⟩
  | unsupported _ hlife => exact ⟨hlife, .inr ⟨(Option.some.inj hresp).symm, rfl⟩⟩
  | reported hnot => exact absurd hi (by simp [hnot])
  | destroyed heq | resetDone heq | submitted _ _ _ heq => subst heq; cases hi

/-- Settles O22: a construction that responds UNSUPPORTED has written the response alone, so the block
is still UNCONSTRUCTED, and 20 ms is a valid frame duration. -/
theorem failedConstructionHasNoEffect : Obligations.FailedConstructionHasNoEffect := by
  unfold Obligations.FailedConstructionHasNoEffect
  intro i s t hi hexec hresp
  obtain ⟨hlife, ⟨_, _, hok, _⟩ | ⟨_, rfl⟩⟩ := construction_responds hi hexec hresp
  · cases hok
  · exact ⟨rfl, fun pt => ⟨_, exec_constructCfg_of_valid (s := responded .unsupported s) hlife
      (.inl rfl), rfl, rfl⟩⟩

/-! ## The statements of the single commands -/

/-- Settles O18: the check on LIFE, then that on the frame duration, before the construction step. -/
theorem constructCfgEffect : Obligations.ConstructCfgEffect := by
  unfold Obligations.ConstructCfgEffect
  intro pt fd s
  exact ⟨fun b => decode_of_rsvField (by decide), malformedWordFaults_all _,
    fun hlife hfd => ⟨_, exec_constructCfg_of_valid hlife hfd, constructed_construct fd pt s⟩,
    fun hlife => exec_constructCfg_of_invalid hlife,
    fun hready => exec_constructCfg.trans (whenUnconstructed_of_ready hready)⟩

/-- Settles O19: the check on LIFE, then that on the triple, before the construction step. -/
theorem constructLegacyEffect : Obligations.ConstructLegacyEffect := by
  unfold Obligations.ConstructLegacyEffect
  intro pt rate ch fd s
  exact ⟨fun b => decode_of_rsvField (by decide), malformedWordFaults_all _,
    fun hlife hvalid =>
      ⟨_, exec_constructLegacy_of_valid hlife hvalid, constructed_construct fd pt s⟩,
    fun hlife => exec_constructLegacy_of_invalid hlife,
    fun hready => exec_constructLegacy.trans (whenUnconstructed_of_ready hready)⟩

/-- Settles O23: `endInstance` writes LIFE and CS, and any construction that succeeds writes COUNTER
and CS anew, whatever it finds in them. -/
theorem destroyEffect : Obligations.DestroyEffect := by
  unfold Obligations.DestroyEffect
  intro s
  refine ⟨fun b => decode_of_rsvField (by decide), malformedWordFaults_all _,
    fun hready => exec_destroy.trans (whenReady_of_ready hready),
    exec_needsInstance_of_unconstructed rfl, fun t u i _ hi hexec hresp => ?_⟩
  obtain ⟨_, ⟨fd, pt, _, hnew⟩ | ⟨hunsupported, _⟩⟩ := construction_responds hi hexec hresp
  · exact ⟨hnew.counter, hnew.cfgFd ▸ hnew.cs⟩
  · cases hunsupported

end Sys2Proof.Proofs

/-! PROOFS. Faults, the state of LIFE, and blocks side by side (60_exceptions.md). -/

namespace Sys2Proof.Proofs

open Sys2Proof Sys2Proof.Machine Sys2Proof.Safety

/-! ## Steps without a command performed -/

/-- A block that is not FAULTED idles (60_exceptions.md R112; log 3). -/
theorem idle_of_alive {s : State} (hlife : s.blk.life ≠ .faulted) :
    Sys2Proof.Machine.idle s = .next s := by
  cases hs : s.blk.life with
  | faulted => exact absurd hs hlife
  | unconstructed | ready => rw [Sys2Proof.Machine.idle, hs]

/-- Settles O8: with an empty port a step is `idle`. -/
theorem idleKeepsAllState : Obligations.IdleKeepsAllState := by
  unfold Obligations.IdleKeepsAllState
  intro s hport hlife
  calc step s = Sys2Proof.Machine.idle s := by rw [step, performNext, hport]
    _ = .next s := idle_of_alive hlife

/-- Settles O9: of the four things a step can be, all but power-on reset start outside FAULTED. -/
theorem faultedBlockHasNoStep : Obligations.FaultedBlockHasNoStep := by
  unfold Obligations.FaultedBlockHasNoStep
  intro s hfaulted
  refine ⟨fun i => exec_faulted i hfaulted, fun c rest hport => ?_, fun t hstep => ?_,
    fun rest hport => ⟨_, step_powerOn hport, rfl⟩⟩
  · rw [step, performNext, hport]
    exact performCommand_of_faulted (s := s.setPort rest) hfaulted
  · cases step_effect hstep with
    | powerOn rest hport => exact ⟨rest, hport⟩
    | idle _ hlife | illegal _ _ _ hlife | performed _ _ _ _ hlife => exact absurd hfaulted hlife

/-! ## Fault entry -/

/-- The fault of a decoded command writes its cause, its own opcode and the information, and nothing
else (60_exceptions.md R103). -/
theorem enterFault_word (cause : Cause) (info : Word16) (i : Instr) (s : State) :
    enterFault cause info i.word s = faultState cause.code i.opc info s := by
  rw [enterFault, Instr.opcField_word]
  rfl

/-- Within the invariants an append reaches the target only by the sub-frame that completes it. -/
theorem inv_counter_succ_eq_target {b : Block} (hinv : Inv b) (hready : b.life = .ready)
    (hreached : target b.cfgFd ≤ (b.counter + 1).toNat) :
    b.counter.toNat + 1 = target b.cfgFd := by
  have hcount := hinv.counting hready
  rw [inv_counter_succ hinv hready] at hreached
  omega

/-- Settles O40: of the courses a command can take, five enter a fault, and the others leave LIFE
outside FAULTED. -/
theorem faultEntryRecordsCause : Obligations.FaultEntryRecordsCause := by
  unfold Obligations.FaultEntryRecordsCause
  intro i s t hexec hfaulted
  have hentered : FaultEntered i.opc t :=
    (exec_faults_or_responds hexec).resolve_right fun hresp => hresp.life hfaulted
  refine ⟨hentered.resp, exec_port hexec, hentered.faultOpc, ?_⟩
  cases exec_effect hexec with
  | noInstance hneeds hlife =>
    exact .inl ⟨rfl, hneeds, hlife, rfl, enterFault_word .noInstance _ i s⟩
  | alreadyConstructed hi hready =>
    exact .inr (.inl ⟨rfl, hi, hready, rfl, enterFault_word .alreadyConstructed _ i s⟩)
  | constructed | destroyed => cases hfaulted
  | unsupported _ hlife => exact absurd (hlife.symm.trans hfaulted) (by decide)
  | resetDone _ hready => exact absurd (hready.symm.trans hfaulted) (by decide)
  | reported _ hlife => exact absurd hfaulted hlife
  | wrongLength ts len samples hi hready hlen =>
    subst hi
    exact .inr (.inr ⟨ts, len, samples, rfl, hready, .inl ⟨rfl, hlen, rfl,
      enterFault_word .contractLength len (.submit ts len samples) s⟩⟩)
  | submitted ts len samples hi hready hlen heffect =>
    refine .inr (.inr ⟨ts, len, samples, hi, hready, .inr ?_⟩)
    cases heffect with
    | buffered | emitted => exact absurd (hready.symm.trans hfaulted) (by decide)
    | codecFails frame c hreached hframe hcore hanswer =>
      have hreached := not_lt.1 hreached
      exact .inl ⟨rfl, hlen, rfl, hreached,
        fun hinv => inv_counter_succ_eq_target hinv hready hreached,
        c, frame, hcore, hframe, hanswer⟩
    | wrongSize frame c c' bytes speech hreached hframe hcore hanswer hsize =>
      have hreached := not_lt.1 hreached
      exact .inr ⟨rfl, hlen, hreached,
        fun hinv => inv_counter_succ_eq_target hinv hready hreached,
        c, c', frame, bytes, speech, hcore, hframe, hanswer, hsize, rfl⟩

/-! ## The checks on LIFE -/

/-- A construction begins with the check that there is no instance, under its own word. -/
theorem exec_eq_whenUnconstructed {i : Instr} (hi : constructs i = true) (s : State) :
    ∃ k, exec i s = whenUnconstructed i.word s k := by
  cases i with
  | constructCfg => exact ⟨_, (word_constructCfg _ _).symm ▸ exec_constructCfg⟩
  | constructLegacy => exact ⟨_, (word_constructLegacy _ _ _ _).symm ▸ exec_constructLegacy⟩
  | constructFmt => exact ⟨_, (word_constructFmt _ _).symm ▸ exec_constructFmt⟩
  | destroy | submit | reset | qRate | qChannels | qNext | qMax | qBitrate | qName | resolve
  | capability => cases hi

/-- In READY every construction enters F_ALREADY_CONSTRUCTED with its own opcode and word
(60_exceptions.md R96, R100). -/
theorem exec_constructs_of_ready {i : Instr} {s : State} (hi : constructs i = true)
    (hready : s.blk.life = .ready) :
    exec i s = .next (faultState 3 i.opc (i.word.setWidth 16) s) := by
  obtain ⟨k, hexec⟩ := exec_eq_whenUnconstructed hi s
  rw [hexec, whenUnconstructed_of_ready hready, enterFault_word]
  rfl

/-- A command that needs no instance completes outside FAULTED, whatever the registers hold. -/
theorem exec_completes_without_instance {i : Instr} {s : State} (hneeds : needsInstance i = false)
    (hlife : s.blk.life ≠ .faulted) : Completes (exec i s) := by
  cases i with
  | constructCfg | constructLegacy =>
    exact completes_whenUnconstructed hlife (completes_constructIf _ _ _ _)
  | constructFmt pt fmt =>
    rw [exec_constructFmt]
    refine completes_whenUnconstructed hlife ?_
    cases resolve fmt <;> exact completes_constructIf _ _ _ _
  | qName | resolve | capability => exact completes_whenAlive hlife (completes_respond _ _)
  | destroy | submit | reset | qRate | qChannels | qNext | qMax | qBitrate => cases hneeds

/-- A command that needs no instance enters no fault in UNCONSTRUCTED. -/
theorem exec_responds_without_instance {i : Instr} {s t : State} (hneeds : needsInstance i = false)
    (hlife : s.blk.life = .unconstructed) (hexec : exec i s = .next t) : Responded s t := by
  refine (exec_faults_or_responds hexec).resolve_left fun hfault => ?_
  obtain ⟨_, _, _, ⟨_, hneeds', _⟩ | ⟨_, _, hready, _⟩ | ⟨_, _, _, _, hready, _⟩⟩ :=
    faultEntryRecordsCause i s t hexec hfault.life
  · simp [hneeds] at hneeds'
  · simp [hlife] at hready
  · simp [hlife] at hready

/-- In READY a command other than a construction enters a fault only as a SUBMIT, and none of the two
decode faults on LIFE. -/
theorem exec_fault_of_ready {i : Instr} {s t : State} (hready : s.blk.life = .ready)
    (hi : constructs i = false) (hexec : exec i s = .next t) (hfaulted : t.blk.life = .faulted) :
    t.blk.faultCause ≠ 2 ∧ t.blk.faultCause ≠ 3 ∧ ∃ ts len samples, i = .submit ts len samples := by
  obtain ⟨_, _, _, ⟨_, _, hlife, _⟩ | ⟨_, hi', _⟩ | ⟨ts, len, samples, rfl, _, hcause⟩⟩ :=
    faultEntryRecordsCause i s t hexec hfaulted
  · simp [hready] at hlife
  · simp [hi] at hi'
  · rcases hcause with ⟨hcode, _⟩ | ⟨hcode, _⟩ | ⟨hcode, _⟩ <;>
      exact ⟨by simp [hcode], by simp [hcode], ts, len, samples, rfl⟩

/-- Settles O25: each clause is the check on LIFE of its class of commands. -/
theorem lifeDecidesAcceptance : Obligations.LifeDecidesAcceptance := by
  unfold Obligations.LifeDecidesAcceptance
  intro i s
  refine ⟨fun hlife hneeds => exec_needsInstance_of_unconstructed hneeds hlife,
    fun hready hi => exec_constructs_of_ready hi hready, fun hlife hneeds => ?_,
    fun hready hi t => exec_fault_of_ready hready hi,
    fun hready _ hinv hwell => exec_completes hwell hinv (by simp [hready]), exec_faulted i⟩
  obtain ⟨t, hexec⟩ := exec_completes_without_instance (s := s) hneeds (by simp [hlife])
  have hresp := exec_responds_without_instance hneeds hlife hexec
  exact ⟨t, hexec, hresp.life, hresp.resp⟩

end Sys2Proof.Proofs

/-! PROOFS. Several blocks (60_exceptions.md R110): each takes its own steps. -/

namespace Sys2Proof.Proofs

open Sys2Proof Sys2Proof.Machine Sys2Proof.Safety

/-- The state after a block's next step, or none where the step stops. -/
def nextState (s : State) : Option State :=
  match step s with
  | .next t => some t
  | .fault _ => none
  | .refused _ => none

theorem nextState_eq_some_iff {s t : State} : nextState s = some t ↔ step s = .next t := by
  unfold nextState
  cases step s <;> simp

section System

variable {j k : Nat} {bs cs : List State}

/-- A step of block `k` reads and writes that block alone. -/
theorem stepBlock_eq (k : Nat) (bs : List State) :
    stepBlock k bs = (bs[k]?.bind nextState).map (bs.set k) := by
  unfold stepBlock
  cases bs[k]? with
  | none => rfl
  | some s =>
    simp only [Option.bind_some, nextState]
    cases step s <;> rfl

theorem stepBlock_eq_some_iff :
    stepBlock k bs = some cs ↔ ∃ s t, bs[k]? = some s ∧ step s = .next t ∧ bs.set k t = cs := by
  simp [stepBlock_eq, Option.bind_eq_some_iff, nextState_eq_some_iff]

/-- What block `j` is after its own step depends on block `j` alone. -/
theorem stepBlock_own (j : Nat) (bs : List State) :
    (stepBlock j bs).map (fun ds => ds[j]?) = (bs[j]?.bind nextState).map some := by
  rw [stepBlock_eq, Option.map_map]
  cases hj : bs[j]? with
  | none => rfl
  | some s =>
    obtain ⟨hlt, _⟩ := List.getElem?_eq_some_iff.1 hj
    congr 1
    funext t
    exact List.getElem?_set_self hlt

/-- The second of two blocks' steps finds its block as the first step found it. -/
theorem stepBlock_bind_stepBlock (hne : j ≠ k) (bs : List State) :
    (stepBlock j bs).bind (stepBlock k) = (bs[j]?.bind nextState).bind fun t =>
      (bs[k]?.bind nextState).map fun u => (bs.set j t).set k u := by
  rw [stepBlock_eq, Option.bind_map]
  congr 1
  funext t
  rw [Function.comp_apply, stepBlock_eq, List.getElem?_set_ne hne]

/-- Steps of two blocks may be taken in either order. -/
theorem stepBlock_comm (hne : j ≠ k) (bs : List State) :
    (stepBlock j bs).bind (stepBlock k) = (stepBlock k bs).bind (stepBlock j) := by
  rw [stepBlock_bind_stepBlock hne, stepBlock_bind_stepBlock hne.symm]
  cases bs[j]?.bind nextState with
  | none => cases bs[k]?.bind nextState <;> rfl
  | some t =>
    cases bs[k]?.bind nextState with
    | none => rfl
    | some u => exact congrArg some (List.set_comm t u hne)

/-- A step of one block keeps the invariants of every block. -/
theorem stepBlock_keeps_inv (hstep : stepBlock k bs = some cs) (hinv : ∀ b ∈ bs, Inv b.blk) :
    ∀ b ∈ cs, Inv b.blk := by
  obtain ⟨s, t, hs, hnext, rfl⟩ := stepBlock_eq_some_iff.1 hstep
  intro b hb
  rcases List.mem_or_eq_of_mem_set hb with hold | rfl
  · exact hinv b hold
  · exact stepKeepsInvariants s b (hinv s (List.mem_of_getElem? hs)) hnext

end System

/-- Settles O54: the system's step of block `k` is `step` on the list's element `k`, so what `step`
keeps and completes is kept and completed in the system (log 16). -/
theorem blocksAreIndependent : Obligations.BlocksAreIndependent := by
  unfold Obligations.BlocksAreIndependent
  intro k bs s hs
  obtain ⟨hlt, _⟩ := List.getElem?_eq_some_iff.1 hs
  refine ⟨fun t hnext => stepBlock_eq_some_iff.2 ⟨s, t, hs, hnext, rfl⟩, fun cs hstep => ?_,
    fun j hne => stepBlock_comm hne bs, fun c rest hinv hlife hport hsamples hname => ?_⟩
  · have hkeeps := stepBlock_keeps_inv hstep
    obtain ⟨s', t, hs', hnext, rfl⟩ := stepBlock_eq_some_iff.1 hstep
    obtain rfl : s = s' := Option.some.inj (hs.symm.trans hs')
    refine ⟨⟨t, hnext, List.getElem?_set_self hlt⟩, List.length_set, fun j hne => ?_, hkeeps⟩
    have hother : (bs.set k t)[j]? = bs[j]? := List.getElem?_set_ne hne.symm
    exact ⟨hother, by rw [stepBlock_own, stepBlock_own, hother]⟩
  · obtain ⟨t, hnext, hrest, hresp⟩ :=
      issuedCommandCompletes s c rest hinv hlife hport hsamples hname
    exact ⟨_, t, stepBlock_eq_some_iff.2 ⟨s, t, hs, hnext, rfl⟩, List.getElem?_set_self hlt,
      hrest, hresp⟩

end Sys2Proof.Proofs

/-! PROOFS. A new instance (70_reset_and_hazards.md R116), and the runs that end well (R124). -/

namespace Sys2Proof.Proofs

open Sys2Proof Sys2Proof.Machine Sys2Proof.Safety

/-! ## A new instance -/

/-- EVERY CONSTRUCTION that responds OK has taken the construction step (43_lifecycle.md R91) with one
of the two frame durations of R88. -/
theorem construction_ok {i : Instr} {s t : State} (hi : constructs i = true)
    (hexec : exec i s = .next t) (hresp : t.resp = some (.ok .plain)) :
    ∃ fd pt, (fd = 20 ∨ fd = 30) ∧ Constructed fd pt s t := by
  cases exec_effect hexec with
  | constructed _ _ fd pt hfd => exact ⟨fd, pt, hfd, constructed_construct fd pt s⟩
  | noInstance | alreadyConstructed | wrongLength | unsupported => cases hresp
  | reported hnot => exact absurd hi (by simp [hnot])
  | destroyed heq | resetDone heq | submitted _ _ _ heq => subst heq; cases hi

/-- Settles O24: the construction step leaves the counter 0, below the target of either frame duration,
so the next sub-frame is the first of its packet. -/
theorem newInstanceStartsEmpty : Obligations.NewInstanceStartsEmpty := by
  unfold Obligations.NewInstanceStartsEmpty
  intro i s t hi hexec hresp
  obtain ⟨fd, pt, hfd, hnew⟩ := construction_ok hi hexec hresp
  refine ⟨(packetState_empty_iff _).2 ⟨hnew.life, hnew.counter⟩, hnew.cfgFd ▸ hnew.cs,
    fun ts samples _ => ?_⟩
  have hbelow : t.blk.counter.toNat + 1 < target t.blk.cfgFd := by
    rw [hnew.counter, hnew.cfgFd]
    rcases hfd with rfl | rfl <;> decide
  exact ⟨_, exec_submit_below hnew.life rfl hbelow, if_pos hnew.counter, rfl⟩

/-! ## No command reads the port -/

/-- The same result, with `es` waiting on the port of its next state. -/
def withPort (es : List HostEvent) : Result → Result
  | .next t => .next (t.setPort es)
  | .fault f => .fault f
  | .refused r => .refused r

theorem withPort_eq_next {es : List HostEvent} {r : Result} {t : State} :
    withPort es r = .next t ↔ ∃ u, r = .next u ∧ u.setPort es = t := by
  cases r <;> simp [withPort]

/-- A computation that neither reads the port nor writes it. -/
def IgnoresPort (k : State → Result) : Prop :=
  ∀ (s : State) (es : List HostEvent), k (s.setPort es) = withPort es (k s)

section IgnoresPort

variable {k : State → Result}

theorem ignoresPort_whenAlive (hk : IgnoresPort k) : IgnoresPort fun s => whenAlive s k := by
  intro s es
  simp only [whenAlive, State.setPort_blk]
  cases s.blk.life with
  | faulted => rfl
  | unconstructed | ready => exact hk s es

theorem ignoresPort_whenReady (cw : Byte) (hk : IgnoresPort k) :
    IgnoresPort fun s => whenReady cw s k := by
  intro s es
  simp only [whenReady, State.setPort_blk]
  cases s.blk.life with
  | faulted | unconstructed => rfl
  | ready => exact hk s es

theorem ignoresPort_whenUnconstructed (cw : Byte) (hk : IgnoresPort k) :
    IgnoresPort fun s => whenUnconstructed cw s k := by
  intro s es
  simp only [whenUnconstructed, State.setPort_blk]
  cases s.blk.life with
  | faulted | ready => rfl
  | unconstructed => exact hk s es

theorem ignoresPort_respond (r : Response) : IgnoresPort (respond r) := fun _ _ => rfl

theorem ignoresPort_constructIf (valid : Bool) (fd : Word16) (pt : Byte) :
    IgnoresPort (constructIf valid fd pt) := by
  intro s es
  cases valid <;> rfl

theorem ignoresPort_finishPacket (answer : Config.CodecResult) :
    IgnoresPort (finishPacket answer) := by
  intro s es
  cases answer with
  | fail => rfl
  | ok next bytes speech =>
    by_cases hsize : bytes.length = requiredOutputSize s.blk.cfgFd
    · rw [finishPacket_emits hsize, finishPacket_emits (s := s.setPort es) hsize]
      rfl
    · rw [finishPacket_wrongSize hsize, finishPacket_wrongSize (s := s.setPort es) hsize]
      rfl

theorem ignoresPort_encodePacket : IgnoresPort encodePacket := by
  intro s es
  simp only [encodePacket, State.setPort_blk]
  cases memRead s.blk.buf 0 (pktSamples s.blk.cfgFd) with
  | none => rfl
  | some frame =>
    cases s.blk.cs with
    | none => rfl
    | some c => exact ignoresPort_finishPacket _ s es

theorem countSubFrame_of_lt {s : State} (hbelow : s.blk.counter.toNat < target s.blk.cfgFd) :
    countSubFrame s = respond .noPacket s := if_pos hbelow

theorem countSubFrame_of_not_lt {s : State}
    (hreached : ¬ s.blk.counter.toNat < target s.blk.cfgFd) :
    countSubFrame s = encodePacket s := if_neg hreached

theorem ignoresPort_countSubFrame : IgnoresPort countSubFrame := by
  intro s es
  by_cases hbelow : s.blk.counter.toNat < target s.blk.cfgFd
  · rw [countSubFrame_of_lt hbelow, countSubFrame_of_lt (s := s.setPort es) hbelow]
    rfl
  · rw [countSubFrame_of_not_lt hbelow, countSubFrame_of_not_lt (s := s.setPort es) hbelow]
    exact ignoresPort_encodePacket s es

theorem ignoresPort_execSubmit (ts : Word32) (len : Word16) (samples : List Sample) :
    IgnoresPort (execSubmit ts len samples) := by
  refine ignoresPort_whenReady _ fun s es => ?_
  split
  · rfl
  · exact ignoresPort_countSubFrame (s.setBlk (appendSubFrame ts samples s.blk)) es

end IgnoresPort

/-- EVERY COMMAND does the same whatever the host has waiting. -/
theorem ignoresPort_exec (i : Instr) : IgnoresPort (exec i) := by
  cases i with
  | constructCfg | constructLegacy =>
    exact ignoresPort_whenUnconstructed _ (ignoresPort_constructIf _ _ _)
  | constructFmt pt fmt =>
    refine ignoresPort_whenUnconstructed _ fun s es => ?_
    cases resolve fmt with
    | unsupported | cfg => exact ignoresPort_constructIf _ _ _ s es
  | submit ts len samples => exact ignoresPort_execSubmit ts len samples
  | destroy | reset | qRate | qChannels | qNext | qMax | qBitrate =>
    exact ignoresPort_whenReady _ fun _ _ => rfl
  | qName | resolve | capability => exact ignoresPort_whenAlive (ignoresPort_respond _)

/-- So does a command taken from the port, whether or not it is decoded. -/
theorem ignoresPort_performCommand (c : Command) : IgnoresPort (performCommand exec c) := by
  intro s es
  by_cases hlife : s.blk.life = .faulted
  · rw [performCommand_of_faulted hlife, performCommand_of_faulted (s := s.setPort es) hlife]
    rfl
  · cases hdecode : decode c with
    | ok i =>
      rw [performCommand_of_ok hlife hdecode, performCommand_of_ok (s := s.setPort es) hlife hdecode]
      exact ignoresPort_exec i s es
    | error e =>
      rw [performCommand_of_error hlife hdecode,
        performCommand_of_error (s := s.setPort es) hlife hdecode]
      split <;> rfl

/-! ## Runs of commands -/

/-- The run of a sequence of commands issued to the block of `s`; `runOf` is the run from power-on
reset. -/
def runFrom (cs : List Command) (s : State) : Result :=
  Host.Core.run Sys2Proof.core cs.length (s.setPort (cs.map .command))

/-- A run of one step more is that step and the run of the others. -/
theorem run_succ_next {M : Host.Core} {n : Nat} {s t : M.State} :
    M.run (n + 1) s = .next t ↔ ∃ u, M.step s = .next u ∧ M.run n u = .next t := by
  rw [Host.Core.run]
  cases M.step s <;> simp

section Run

variable {c : Command} {cs ds : List Command} {s t : State}

theorem runOf_eq_runFrom (cs : List Command) : runOf cs = runFrom cs State.reset := rfl

theorem runFrom_nil (s : State) : runFrom [] s = .next (s.setPort []) := rfl

/-- A run is its first command, whatever waits behind it, and the run of the others. -/
theorem runFrom_cons_next : runFrom (c :: cs) s = .next t ↔
    ∃ u, performCommand exec c s = .next u ∧ runFrom cs u = .next t := by
  have hstep : step (s.setPort ((c :: cs).map .command)) =
      withPort (cs.map .command) (performCommand exec c s) :=
    ignoresPort_performCommand c s (cs.map .command)
  constructor
  · intro hrun
    obtain ⟨_, hnext, hrest⟩ := run_succ_next.1 hrun
    obtain ⟨u, hfirst, rfl⟩ := withPort_eq_next.1 (hstep.symm.trans hnext)
    exact ⟨u, hfirst, hrest⟩
  · rintro ⟨u, hfirst, hrest⟩
    exact run_succ_next.2 ⟨_, hstep.trans (withPort_eq_next.2 ⟨u, hfirst, rfl⟩), hrest⟩

/-- A run that reaches a state has run each initial part of its commands. -/
theorem runFrom_append_next (hrun : runFrom (cs ++ ds) s = .next t) :
    ∃ u, runFrom cs s = .next u ∧ runFrom ds u = .next t := by
  induction cs generalizing s with
  | nil => exact ⟨_, runFrom_nil s, hrun⟩
  | cons c cs ih =>
    obtain ⟨u, hfirst, hrest⟩ := runFrom_cons_next.1 hrun
    obtain ⟨v, hcs, hds⟩ := ih hrest
    exact ⟨v, runFrom_cons_next.2 ⟨u, hfirst, hcs⟩, hds⟩

/-- A command that is performed leaves a fault or a response, as a step with it on the port does. -/
theorem performCommand_faults_or_responds (hnext : performCommand exec c s = .next t) :
    t.blk.life = .faulted ∨ t.resp ≠ none :=
  (step_command_faults_or_responds (s := issueNext c s) rfl hnext).imp FaultEntered.life
    Responded.resp

/-- So does a run of one or more commands. -/
theorem runFrom_faults_or_responds (hne : cs ≠ []) (hrun : runFrom cs s = .next t) :
    t.blk.life = .faulted ∨ t.resp ≠ none := by
  induction cs generalizing s with
  | nil => contradiction
  | cons c cs ih =>
    obtain ⟨u, hfirst, hrest⟩ := runFrom_cons_next.1 hrun
    cases cs with
    | nil =>
      cases hrest
      exact performCommand_faults_or_responds (t := u) hfirst
    | cons d ds => exact ih (List.cons_ne_nil d ds) hrest

/-- FAULTED lasts to the end of a run, which has no power-on reset (60_exceptions.md R104). -/
theorem runFrom_keeps_faulted (hfaulted : s.blk.life = .faulted) (hrun : runFrom cs s = .next t) :
    t.blk.life = .faulted := by
  cases cs with
  | nil =>
    cases hrun
    exact hfaulted
  | cons c cs =>
    obtain ⟨u, hfirst, _⟩ := runFrom_cons_next.1 hrun
    rw [performCommand_of_faulted hfaulted] at hfirst
    cases hfirst

end Run

/-- Settles O53: the initial part reaches a state that is not FAULTED, since the end of the run is not,
and so its last command has responded. -/
theorem runEndsWellFromStart : Obligations.RunEndsWellFromStart := by
  unfold Obligations.RunEndsWellFromStart
  rintro cs ds hne ⟨t, hrun, _, halive⟩
  rw [runOf_eq_runFrom] at hrun
  obtain ⟨u, hcs, hds⟩ := runFrom_append_next hrun
  have hlife : u.blk.life ≠ .faulted := mt (fun h => runFrom_keeps_faulted h hds) halive
  have hresp := (runFrom_faults_or_responds hne hcs).resolve_left hlife
  exact ⟨u, (runOf_eq_runFrom cs).trans hcs, Option.isSome_iff_ne_none.2 hresp, hlife⟩

end Sys2Proof.Proofs
